-- ==== Sys2Proof/Word.lean ====
section
/-! DEFINITION. The widths of spec/00_scope.md rule R8: every value of this hardware is an unsigned bit vector. -/

namespace Sys2Proof

/-- `u8`: a `V` register, a memory byte, a timer counter (R8, R20). -/
abbrev Byte := BitVec 8

/-- `u16`: `PC`, `I`, a stack entry, an instruction word (R8, R22, R23, R26). -/
abbrev Word := BitVec 16

/-- Four bits: a register index `x` or `y`, a sprite height `n`, a key number (R73, R151). -/
abbrev Nibble := BitVec 4

/-- Twelve bits: the field `addr` (R73). -/
abbrev Addr := BitVec 12

end Sys2Proof
end

