-- ==== Sys2Proof/Syntax.lean ====
section
/-! DEFINITION. The instructions: one constructor per row of spec/opcode_table.json (spec/30_encoding.md Table R75, then
spec/44_optional_ef_extension.md Table R150). A word that selects no row is no instruction: it is the UNIMPLEMENTED word of R95. -/

namespace Sys2Proof

/-- An instruction with its operand fields (R73). Every field is at its width, so every value of a field is an encoding. -/
inductive Instr where
  /-- `00E0` CLS (R140). -/
  | cls
  /-- `00EE` RET (R101). -/
  | ret
  /-- `1addr` JP addr (R102). -/
  | jp (addr : Addr)
  /-- `2addr` CALL addr (R103). -/
  | call (addr : Addr)
  /-- `3xkk` SE Vx, kk (R105). -/
  | seImm (x : Nibble) (kk : Byte)
  /-- `4xkk` SNE Vx, kk (R106). -/
  | sneImm (x : Nibble) (kk : Byte)
  /-- `5xy0` SE Vx, Vy (R107). -/
  | seReg (x y : Nibble)
  /-- `6xkk` LD Vx, kk (R121). -/
  | ldImm (x : Nibble) (kk : Byte)
  /-- `7xkk` ADD Vx, kk (R122). -/
  | addImm (x : Nibble) (kk : Byte)
  /-- `8xy0` LD Vx, Vy (R123). -/
  | ldReg (x y : Nibble)
  /-- `8xy1` OR Vx, Vy (R124). -/
  | orReg (x y : Nibble)
  /-- `8xy2` AND Vx, Vy (R125). -/
  | andReg (x y : Nibble)
  /-- `8xy3` XOR Vx, Vy (R126). -/
  | xorReg (x y : Nibble)
  /-- `8xy4` ADD Vx, Vy (R127). -/
  | addReg (x y : Nibble)
  /-- `8xy5` SUB Vx, Vy (R128). -/
  | subReg (x y : Nibble)
  /-- `8xy6` SHR Vx (R129); the field `y` is decoded and ignored (R76). -/
  | shr (x y : Nibble)
  /-- `8xy7` SUBN Vx, Vy (R130). -/
  | subnReg (x y : Nibble)
  /-- `8xyE` SHL Vx (R131); the field `y` is decoded and ignored (R76). -/
  | shl (x y : Nibble)
  /-- `9xy0` SNE Vx, Vy (R108). -/
  | sneReg (x y : Nibble)
  /-- `Annn` LD I, addr (R132). -/
  | ldI (addr : Addr)
  /-- `Bnnn` JP V0, addr (R104). -/
  | jpV0 (addr : Addr)
  /-- `Cxkk` RND Vx, kk (R133). -/
  | rnd (x : Nibble) (kk : Byte)
  /-- `Dxyn` DRW Vx, Vy, n (R141). -/
  | drw (x y n : Nibble)
  /-- `Ex9E` SKP Vx (R152, extension). -/
  | skp (x : Nibble)
  /-- `ExA1` SKNP Vx (R153, extension). -/
  | sknp (x : Nibble)
  /-- `Fx07` LD Vx, DT (R154, extension). -/
  | ldVxDt (x : Nibble)
  /-- `Fx0A` LD Vx, K (R155, extension). -/
  | ldVxK (x : Nibble)
  /-- `Fx15` LD DT, Vx (R156, extension). -/
  | ldDtVx (x : Nibble)
  /-- `Fx18` LD ST, Vx (R157, extension). -/
  | ldStVx (x : Nibble)
  /-- `Fx1E` ADD I, Vx (R158, extension). -/
  | addI (x : Nibble)
  /-- `Fx29` LD F, Vx (R159, extension). -/
  | ldF (x : Nibble)
  /-- `Fx33` LD B, Vx (R160, extension). -/
  | ldB (x : Nibble)
  /-- `Fx55` LD [I], Vx (R161, extension). -/
  | stRegs (x : Nibble)
  /-- `Fx65` LD Vx, [I] (R162, extension). -/
  | ldRegs (x : Nibble)
  deriving DecidableEq, Repr

end Sys2Proof
end

