-- ==== Sys2Proof/WellFormed.lean ====
section
/-! DEFINITION. Which instructions a machine has. Every operand field is at its width by type; what is left to check is the switch
`EXT_EF` of spec/44_optional_ef_extension.md rule R150. -/

namespace Sys2Proof

/-- The eleven instructions of Table R150, which exist only with `EXT_EF = true`. -/
def Instr.isExtension : Instr → Bool
  | .cls | .ret | .jp _ | .call _ | .seImm _ _ | .sneImm _ _ | .seReg _ _ | .ldImm _ _ | .addImm _ _ | .ldReg _ _ => false
  | .orReg _ _ | .andReg _ _ | .xorReg _ _ | .addReg _ _ | .subReg _ _ | .shr _ _ | .subnReg _ _ | .shl _ _ => false
  | .sneReg _ _ | .ldI _ | .jpV0 _ | .rnd _ _ | .drw _ _ _ => false
  | .skp _ | .sknp _ | .ldVxDt _ | .ldVxK _ | .ldDtVx _ | .ldStVx _ | .addI _ | .ldF _ | .ldB _ | .stRegs _ | .ldRegs _ => true

/-- An instruction is well formed for a machine with the switch at `ext` when that machine has it (R75, R150). -/
def Instr.wellFormed (ext : Bool) (i : Instr) : Bool := !i.isExtension || ext

end Sys2Proof
end

