-- ==== Sys2Proof/Decode.lean ====
section
/-! DEFINITION. From bytes to an instruction or a rejection by name (spec/30_encoding.md, spec/44_optional_ef_extension.md), the opcode
map as the spec tabulates it, and the encoder written from the same tables. -/

namespace Sys2Proof

/-! ### Word assembly and fields -/

/-- The instruction word of two bytes, the one at the lower address most significant (R43, R71). -/
def wordOfBytes (hi lo : Byte) : Word := hi ++ lo

/-- The byte at the lower address, `op[15:8]` (R71). -/
def highByte (op : Word) : Byte := op.extractLsb' 8 8

/-- The byte at the next address, `op[7:0]` (R71). -/
def lowByte (op : Word) : Byte := op.extractLsb' 0 8

/-- `n0 = op[15:12]` (R72). -/
def nib0 (op : Word) : Nibble := op.extractLsb' 12 4

/-- `n1 = op[11:8]`, the field `x` (R72, R73). -/
def fieldX (op : Word) : Nibble := op.extractLsb' 8 4

/-- `n2 = op[7:4]`, the field `y` (R72, R73). -/
def fieldY (op : Word) : Nibble := op.extractLsb' 4 4

/-- `n3 = op[3:0]`, the field `n` (R72, R73). -/
def fieldN (op : Word) : Nibble := op.extractLsb' 0 4

/-- `kk = op[7:0]` (R73). -/
def fieldKk (op : Word) : Byte := op.extractLsb' 0 8

/-- `addr = op[11:0]` (R73). -/
def fieldAddr (op : Word) : Addr := op.extractLsb' 0 12

/-! ### Decoding -/

/-- Why bytes are no instruction. -/
inductive DecodeError where
  /-- The word selects no enabled row: the unimplemented opcode of R77. -/
  | unimplemented (op : Word)
  /-- Fewer than two bytes: every instruction has exactly two (R70). -/
  | truncated
  deriving DecidableEq, Repr

/-- The group `8xyN`: one row for each function digit of Table R75. -/
def decodeAlu (op : Word) : Option Instr :=
  let x := fieldX op
  let y := fieldY op
  if fieldN op = 0x0#4 then some (.ldReg x y)
  else if fieldN op = 0x1#4 then some (.orReg x y)
  else if fieldN op = 0x2#4 then some (.andReg x y)
  else if fieldN op = 0x3#4 then some (.xorReg x y)
  else if fieldN op = 0x4#4 then some (.addReg x y)
  else if fieldN op = 0x5#4 then some (.subReg x y)
  else if fieldN op = 0x6#4 then some (.shr x y)
  else if fieldN op = 0x7#4 then some (.subnReg x y)
  else if fieldN op = 0xE#4 then some (.shl x y)
  else none

/-- The group `Exkk` of the extension (Table R150). -/
def decodeE (op : Word) : Option Instr :=
  if fieldKk op = 0x9E#8 then some (.skp (fieldX op))
  else if fieldKk op = 0xA1#8 then some (.sknp (fieldX op))
  else none

/-- The group `Fxkk` of the extension (Table R150). -/
def decodeF (op : Word) : Option Instr :=
  let x := fieldX op
  if fieldKk op = 0x07#8 then some (.ldVxDt x)
  else if fieldKk op = 0x0A#8 then some (.ldVxK x)
  else if fieldKk op = 0x15#8 then some (.ldDtVx x)
  else if fieldKk op = 0x18#8 then some (.ldStVx x)
  else if fieldKk op = 0x1E#8 then some (.addI x)
  else if fieldKk op = 0x29#8 then some (.ldF x)
  else if fieldKk op = 0x33#8 then some (.ldB x)
  else if fieldKk op = 0x55#8 then some (.stRegs x)
  else if fieldKk op = 0x65#8 then some (.ldRegs x)
  else none

/-- The row of the opcode map that a word selects, on a machine with the switch `EXT_EF` at `ext` (R75, R76, R150). -/
def selectRow (ext : Bool) (op : Word) : Option Instr :=
  if nib0 op = 0x0#4 then
    if fieldAddr op = 0x0E0#12 then some .cls else if fieldAddr op = 0x0EE#12 then some .ret else none
  else if nib0 op = 0x1#4 then some (.jp (fieldAddr op))
  else if nib0 op = 0x2#4 then some (.call (fieldAddr op))
  else if nib0 op = 0x3#4 then some (.seImm (fieldX op) (fieldKk op))
  else if nib0 op = 0x4#4 then some (.sneImm (fieldX op) (fieldKk op))
  else if nib0 op = 0x5#4 then if fieldN op = 0x0#4 then some (.seReg (fieldX op) (fieldY op)) else none
  else if nib0 op = 0x6#4 then some (.ldImm (fieldX op) (fieldKk op))
  else if nib0 op = 0x7#4 then some (.addImm (fieldX op) (fieldKk op))
  else if nib0 op = 0x8#4 then decodeAlu op
  else if nib0 op = 0x9#4 then if fieldN op = 0x0#4 then some (.sneReg (fieldX op) (fieldY op)) else none
  else if nib0 op = 0xA#4 then some (.ldI (fieldAddr op))
  else if nib0 op = 0xB#4 then some (.jpV0 (fieldAddr op))
  else if nib0 op = 0xC#4 then some (.rnd (fieldX op) (fieldKk op))
  else if nib0 op = 0xD#4 then some (.drw (fieldX op) (fieldY op) (fieldN op))
  else if nib0 op = 0xE#4 then if ext then decodeE op else none
  else if ext then decodeF op else none

/-- Decoding one word: an instruction, or the word rejected as unimplemented (R76, R77, R93). -/
def decodeWord (ext : Bool) (op : Word) : Except DecodeError Instr :=
  match selectRow ext op with
  | some i => .ok i
  | none => .error (.unimplemented op)

/-- Decoding the front of a list of bytes: the instruction and the bytes after it (R70, R71). -/
def decode (ext : Bool) : List Byte → Except DecodeError (Instr × List Byte)
  | hi :: lo :: rest =>
    match decodeWord ext (wordOfBytes hi lo) with
    | .ok i => .ok (i, rest)
    | .error e => .error e
  | _ => .error .truncated

/-- The two bytes of a word as memory holds them (R71). -/
def bytesOfWord (op : Word) : List Byte := [highByte op, lowByte op]

/-- The low 16 bits of a table row's word; bits from `nbits` on are zero. -/
def tableWord (nbits w : Nat) : Word := BitVec.ofNat 16 (w % 2 ^ nbits)

/-- What the decoder reads from a word of spec/opcode_table.json. The table holds the rows of the extension too, so it is read with the
switch on (log entry 3). -/
def decodeTableWord (nbits w : Nat) : Option Instr :=
  match decode true (bytesOfWord (tableWord nbits w)) with
  | .ok (i, _) => some i
  | .error _ => none

/-! ### Encoding -/

/-- Format `ADDR` (Table R74). -/
def wordAddr (n0 : Nibble) (addr : Addr) : Word := n0 ++ addr

/-- Format `XKK` (Table R74), and `XFN` of Table R150 with the function byte in the place of `kk`. -/
def wordXKk (n0 x : Nibble) (kk : Byte) : Word := n0 ++ (x ++ kk : BitVec 12)

/-- Formats `XY` and `XYN` (Table R74). -/
def wordXYN (n0 x y n : Nibble) : Word := n0 ++ (x ++ (y ++ n : BitVec 8) : BitVec 12)

/-- The word of an instruction, from the opcode and field columns of Tables R75 and R150. -/
def encodeWord : Instr → Word
  | .cls => wordAddr 0x0#4 0x0E0#12
  | .ret => wordAddr 0x0#4 0x0EE#12
  | .jp addr => wordAddr 0x1#4 addr
  | .call addr => wordAddr 0x2#4 addr
  | .seImm x kk => wordXKk 0x3#4 x kk
  | .sneImm x kk => wordXKk 0x4#4 x kk
  | .seReg x y => wordXYN 0x5#4 x y 0x0#4
  | .ldImm x kk => wordXKk 0x6#4 x kk
  | .addImm x kk => wordXKk 0x7#4 x kk
  | .ldReg x y => wordXYN 0x8#4 x y 0x0#4
  | .orReg x y => wordXYN 0x8#4 x y 0x1#4
  | .andReg x y => wordXYN 0x8#4 x y 0x2#4
  | .xorReg x y => wordXYN 0x8#4 x y 0x3#4
  | .addReg x y => wordXYN 0x8#4 x y 0x4#4
  | .subReg x y => wordXYN 0x8#4 x y 0x5#4
  | .shr x y => wordXYN 0x8#4 x y 0x6#4
  | .subnReg x y => wordXYN 0x8#4 x y 0x7#4
  | .shl x y => wordXYN 0x8#4 x y 0xE#4
  | .sneReg x y => wordXYN 0x9#4 x y 0x0#4
  | .ldI addr => wordAddr 0xA#4 addr
  | .jpV0 addr => wordAddr 0xB#4 addr
  | .rnd x kk => wordXKk 0xC#4 x kk
  | .drw x y n => wordXYN 0xD#4 x y n
  | .skp x => wordXKk 0xE#4 x 0x9E#8
  | .sknp x => wordXKk 0xE#4 x 0xA1#8
  | .ldVxDt x => wordXKk 0xF#4 x 0x07#8
  | .ldVxK x => wordXKk 0xF#4 x 0x0A#8
  | .ldDtVx x => wordXKk 0xF#4 x 0x15#8
  | .ldStVx x => wordXKk 0xF#4 x 0x18#8
  | .addI x => wordXKk 0xF#4 x 0x1E#8
  | .ldF x => wordXKk 0xF#4 x 0x29#8
  | .ldB x => wordXKk 0xF#4 x 0x33#8
  | .stRegs x => wordXKk 0xF#4 x 0x55#8
  | .ldRegs x => wordXKk 0xF#4 x 0x65#8

/-- The bytes of an instruction, at rising addresses (R71). -/
def encode (i : Instr) : List Byte := bytesOfWord (encodeWord i)

/-! ### The opcode map as a table -/

/-- A row of Table R75 or Table R150: a word selects it when `op AND mask = value` (the table's column `match`); `ext` marks the rows
that need `EXT_EF`. -/
structure OpcodeRow where
  value : Word
  mask : Word
  ext : Bool
  deriving DecidableEq, Repr

/-- Whether a word selects a row, on a machine with the switch at `ext` (R75, R150). -/
def OpcodeRow.selectedBy (r : OpcodeRow) (ext : Bool) (op : Word) : Bool := (op &&& r.mask == r.value) && (!r.ext || ext)

/-- The row of each instruction, match and mask columns copied from Tables R75 and R150. -/
def Instr.row : Instr → OpcodeRow
  | .cls => ⟨0x00E0#16, 0xFFFF#16, false⟩
  | .ret => ⟨0x00EE#16, 0xFFFF#16, false⟩
  | .jp _ => ⟨0x1000#16, 0xF000#16, false⟩
  | .call _ => ⟨0x2000#16, 0xF000#16, false⟩
  | .seImm _ _ => ⟨0x3000#16, 0xF000#16, false⟩
  | .sneImm _ _ => ⟨0x4000#16, 0xF000#16, false⟩
  | .seReg _ _ => ⟨0x5000#16, 0xF00F#16, false⟩
  | .ldImm _ _ => ⟨0x6000#16, 0xF000#16, false⟩
  | .addImm _ _ => ⟨0x7000#16, 0xF000#16, false⟩
  | .ldReg _ _ => ⟨0x8000#16, 0xF00F#16, false⟩
  | .orReg _ _ => ⟨0x8001#16, 0xF00F#16, false⟩
  | .andReg _ _ => ⟨0x8002#16, 0xF00F#16, false⟩
  | .xorReg _ _ => ⟨0x8003#16, 0xF00F#16, false⟩
  | .addReg _ _ => ⟨0x8004#16, 0xF00F#16, false⟩
  | .subReg _ _ => ⟨0x8005#16, 0xF00F#16, false⟩
  | .shr _ _ => ⟨0x8006#16, 0xF00F#16, false⟩
  | .subnReg _ _ => ⟨0x8007#16, 0xF00F#16, false⟩
  | .shl _ _ => ⟨0x800E#16, 0xF00F#16, false⟩
  | .sneReg _ _ => ⟨0x9000#16, 0xF00F#16, false⟩
  | .ldI _ => ⟨0xA000#16, 0xF000#16, false⟩
  | .jpV0 _ => ⟨0xB000#16, 0xF000#16, false⟩
  | .rnd _ _ => ⟨0xC000#16, 0xF000#16, false⟩
  | .drw _ _ _ => ⟨0xD000#16, 0xF000#16, false⟩
  | .skp _ => ⟨0xE09E#16, 0xF0FF#16, true⟩
  | .sknp _ => ⟨0xE0A1#16, 0xF0FF#16, true⟩
  | .ldVxDt _ => ⟨0xF007#16, 0xF0FF#16, true⟩
  | .ldVxK _ => ⟨0xF00A#16, 0xF0FF#16, true⟩
  | .ldDtVx _ => ⟨0xF015#16, 0xF0FF#16, true⟩
  | .ldStVx _ => ⟨0xF018#16, 0xF0FF#16, true⟩
  | .addI _ => ⟨0xF01E#16, 0xF0FF#16, true⟩
  | .ldF _ => ⟨0xF029#16, 0xF0FF#16, true⟩
  | .ldB _ => ⟨0xF033#16, 0xF0FF#16, true⟩
  | .stRegs _ => ⟨0xF055#16, 0xF0FF#16, true⟩
  | .ldRegs _ => ⟨0xF065#16, 0xF0FF#16, true⟩

/-- One instruction of each row, operands zero: the 23 rows of Table R75, then the 11 of Table R150. -/
def rowInstrs : List Instr :=
  [.cls, .ret, .jp 0, .call 0, .seImm 0 0, .sneImm 0 0, .seReg 0 0, .ldImm 0 0, .addImm 0 0, .ldReg 0 0, .orReg 0 0, .andReg 0 0] ++
  [.xorReg 0 0, .addReg 0 0, .subReg 0 0, .shr 0 0, .subnReg 0 0, .shl 0 0, .sneReg 0 0, .ldI 0, .jpV0 0, .rnd 0 0, .drw 0 0 0] ++
  [.skp 0, .sknp 0, .ldVxDt 0, .ldVxK 0, .ldDtVx 0, .ldStVx 0, .addI 0, .ldF 0, .ldB 0, .stRegs 0, .ldRegs 0]

/-- The opcode map: Table R75 followed by Table R150. -/
def opcodeMap : List OpcodeRow := rowInstrs.map Instr.row

end Sys2Proof
end

