-- ==== Sys2Proof/Config.lean ====
section
/-! DEFINITION. The fixed parameters of spec/00_scope.md Table R5, the one open constant, and the free values: the answers that the
spec takes from an oracle. A free value is an opaque constant without a body, so no proof can know it. -/

namespace Sys2Proof

/-- `MEM_SIZE`: bytes of the address space (R5, R40). -/
def Config.memSize : Nat := 4096

/-- `STACK_DEPTH`: entries of the call stack (R5, R26). -/
def Config.stackDepth : Nat := 16

/-- `RESET_PC` (R5, R31). -/
def Config.resetPc : Word := 0x200#16

/-- `LOAD_ADDR`: where the host must place the program (R5, R47). -/
def Config.loadAddr : Nat := 0x200

/-- What an address that memory does not list reads as. DESIGN CHOICE, unsafe (log entry 4): the spec promises no contents (R48). -/
def Config.unlistedByte : Byte := 0x00#8

/-- `FONT_BASE`, an OPEN parameter (R6, R151), left without a value (log entry 8). -/
opaque Config.fontBase : Word

/-- FREE VALUE: the answer to draw number `k` of the random source (R60, D13; log entry 5). -/
opaque Config.randomByte : Nat → Byte

/-- FREE VALUE: the Display's answer to its draw number `k`, `true` for a collision (R56, D14; log entry 6). -/
opaque Config.collision : Nat → Bool

/-- FREE VALUE: the Input's answer to `KeyPressed` number `k` (R151, I14; log entry 7). -/
opaque Config.keyPressed : Nat → Bool

/-- FREE VALUE: the Input's answer to `WaitKey` number `k`, no key or a key number (R151, I14; log entry 7). -/
opaque Config.waitKey : Nat → Option Nibble

/-- FREE VALUE: what the host has done to the delay counter before `TimerRead` number `k`: nothing, or set it to a value
(R151, I14, D22; log entry 9). -/
opaque Config.hostDelay : Nat → Option Byte

end Sys2Proof
end

