-- ==== Sys2Proof/Machine/State.lean ====
section
/-! DEFINITION. The state of the machine as plain data: the Register File and the fault latch (spec/10_state.md), the switch `EXT_EF`,
and the collaborators the core reaches (spec/20_memory.md sections 1 and 7 to 11). INVENTORY.md lists every field with its rule. -/

namespace Sys2Proof.Machine

/-- The two fatal conditions (R180). -/
inductive FaultCause where
  /-- Code 1, raised by `2addr` with `SP = 16` (R183). -/
  | stackOverflow
  /-- Code 2, raised by `00EE` with `SP = 0` (R184). -/
  | stackUnderflow
  deriving DecidableEq, Repr

/-- Why `step` answers that the machine stops. -/
inductive Fault where
  /-- Raised by `step` alone, when the latch `FAULT` is already set: the faulted core does nothing and reports its cause again (R96).
  Safe: it is the answer the spec gives. -/
  | latched (cause : FaultCause)
  deriving DecidableEq, Repr

/-- Why `step` or a meaning answers that it has no next state. -/
inductive Refusal where
  /-- Raised by an arm of `exec` whose instruction has no meaning yet; no arm is left so. Safe. -/
  | notModelled (mnemonic : String)
  /-- Raised by `2addr` and `00EE` when `SP` holds 17 to 255, which no execution produces and for which the spec defines no behaviour
  (R27, D20, I16; log entry 11). Safe: it stops where the spec says nothing. -/
  | stackPointerOutOfRange
  deriving DecidableEq, Repr

/-- The two counters of the Timers collaborator (R59, R151). -/
inductive TimerId where
  /-- The delay counter `DT`. -/
  | dt
  /-- The sound counter `ST`. -/
  | st
  deriving DecidableEq, Repr

/-- A transaction of the core with a collaborator or the diagnostic channel, with its arguments and its answer (R41, R55 to R61, R151). -/
inductive Event where
  /-- `MemRead(a, 2)`, the fetch, answered `op` (R91). -/
  | fetch (a : Word) (op : Word)
  /-- `MemRead(a, 1)` answered `b`; `a` is the address before the wrap (R42). -/
  | memRead (a : Nat) (b : Byte)
  /-- `MemWrite(a, 1, b)`, extension only; `a` is the address before the wrap (R151). -/
  | memWrite (a : Nat) (b : Byte)
  /-- `DispClear()` (R55). -/
  | dispClear
  /-- `DispDrawByte(xp, yp, b)` answered `collision` (R55); `yp` is the plain sum, 0 to 269. -/
  | dispDrawByte (xp : Byte) (yp : Nat) (b : Byte) (collision : Bool)
  /-- `DispUpdate()` (R55). -/
  | dispUpdate
  /-- `RandomByte()` answered `b` (R60). -/
  | randomByte (b : Byte)
  /-- `KeyPressed(k)` answered `pressed` (R151). -/
  | keyPressed (k : Byte) (pressed : Bool)
  /-- `WaitKey()` answered `key` (R151). -/
  | waitKey (key : Option Nibble)
  /-- `TimerRead(t)` answered `v` (R151). -/
  | timerRead (t : TimerId) (v : Byte)
  /-- `TimerWrite(t, v)` (R151). -/
  | timerWrite (t : TimerId) (v : Byte)
  /-- `Notice(Unimplemented, op, a)` on the diagnostic channel (R61, R95). -/
  | notice (op : Word) (a : Word)
  /-- `Report(cause)` on the diagnostic channel (R61, R189). -/
  | report (cause : FaultCause)
  deriving DecidableEq, Repr

/-- Where the answers of one open collaborator come from: an input stream while it lasts, then the free values of Config, by number
(R60, D13, D14, I4, I5, I14; log entry 10). The model's own data. -/
structure Source (α : Type) where
  /-- The answers still to be given, first first. -/
  script : List α
  /-- How many answers have been given. -/
  drawn : Nat
  deriving DecidableEq, Repr

/-- The sources of every answer the core does not compute (R98). -/
structure Sources where
  /-- Answers of `RandomByte`. -/
  random : Source Byte
  /-- Answers of `DispDrawByte`. -/
  collision : Source Bool
  /-- Answers of `KeyPressed`. -/
  key : Source Bool
  /-- Answers of `WaitKey`. -/
  wait : Source (Option Nibble)
  /-- What the host has done to the delay counter by each `TimerRead`: nothing, or set it. -/
  delay : Source (Option Byte)
  deriving DecidableEq, Repr

/-- Memory: address and byte pairs, addresses strictly rising, no byte equal to what an unlisted address reads as (`Memory.wf`). -/
abbrev Memory := List Host.Cell

/-- The state of the machine. -/
structure State where
  /-- `V[0]` to `V[15]` (R20); `V[15]` is `VF` (R21). -/
  v : Vector Byte 16
  /-- `I` (R22). -/
  i : Word
  /-- `PC` (R23). -/
  pc : Word
  /-- `SP`, the number of entries on the stack (R25). -/
  sp : Byte
  /-- `Stack[0]` to `Stack[15]` (R26). -/
  stack : Vector Word 16
  /-- The latch `FAULT`, `none` for code 0 (R28). -/
  fault : Option FaultCause
  /-- The parameter `EXT_EF` (R6, R150); constant during a run (log entry 2). -/
  extEF : Bool
  /-- The contents of Memory (R40, R48). -/
  mem : Memory
  /-- The model's own: where the open answers come from. -/
  sources : Sources
  /-- The delay counter of the Timers collaborator (R59, R151). -/
  delay : Byte
  /-- The sound counter of the Timers collaborator (R59, R151). -/
  sound : Byte
  /-- The model's own: the event history, oldest first (R63). -/
  events : List Event
  deriving DecidableEq, Repr

/-- The core's own state, the Register File and the latch (R29): what `reset` sets and the host cannot otherwise reach (R32). -/
structure RegisterFile where
  v : Vector Byte 16
  i : Word
  pc : Word
  sp : Byte
  stack : Vector Word 16
  fault : Option FaultCause
  deriving DecidableEq, Repr

/-- The core's part of a state. -/
def State.registerFile (s : State) : RegisterFile := ⟨s.v, s.i, s.pc, s.sp, s.stack, s.fault⟩

/-- The reset values of Table R31. -/
def RegisterFile.reset : RegisterFile :=
  { v := Vector.replicate 16 0#8, i := 0#16, pc := Config.resetPc, sp := 0#8, stack := Vector.replicate 16 0#16, fault := none }

/-- No answer scripted, none given: every answer is a free value. -/
def Sources.fresh : Sources := ⟨⟨[], 0⟩, ⟨[], 0⟩, ⟨[], 0⟩, ⟨[], 0⟩, ⟨[], 0⟩⟩

/-- The machine right after reset over the memory contents `mem0`, the open parameter `Mem0` of R48. The two timer counters have no
reset value in the spec (log entry 9). -/
def State.powerOn (mem0 : Memory) : State :=
  { v := RegisterFile.reset.v, i := RegisterFile.reset.i, pc := RegisterFile.reset.pc, sp := RegisterFile.reset.sp
    stack := RegisterFile.reset.stack, fault := RegisterFile.reset.fault, extEF := false, mem := mem0
    sources := Sources.fresh, delay := 0#8, sound := 0#8, events := [] }

/-- The machine right after reset, memory listing nothing (log entry 4). -/
def State.reset : State := State.powerOn []

end Sys2Proof.Machine
end

