-- ==== Sys2Proof/Machine/Ops.lean ====
section
/-! DEFINITION. The named operations every meaning is written with: registers (spec/10_state.md), memory and the other transactions
(spec/20_memory.md, spec/44_optional_ef_extension.md rule R151), the stack, raising a fault (spec/60_exceptions.md) and the fetch
(spec/40_step_cycle.md). The spec has no return from an exception (R190). -/

namespace Sys2Proof.Machine

/-! ### Registers -/

/-- `V[x]` (R9). -/
def readV (x : Nibble) (s : State) : Byte := s.v[x.toNat]'x.isLt

/-- `V[x] <- b` (R9). -/
def writeV (x : Nibble) (b : Byte) (s : State) : State := { s with v := s.v.set x.toNat b x.isLt }

/-- `VF`, that is `V[0xF]` (R21). -/
def vf (s : State) : Byte := readV 0xF#4 s

/-- `V[0xF] <- b` (R21). -/
def writeVF (b : Byte) (s : State) : State := writeV 0xF#4 b s

/-- `I <- w` (R22). -/
def setI (w : Word) (s : State) : State := { s with i := w }

/-- `PC <- w` (R23). -/
def setPc (w : Word) (s : State) : State := { s with pc := w }

/-- `PC <- (PC + 2) mod 65536` (R24, R92, R109). -/
def bumpPc (s : State) : State := setPc (s.pc + 2#16) s

/-! ### The event history -/

/-- Record one transaction after those before it (R63). -/
def emit (e : Event) (s : State) : State := { s with events := s.events ++ [e] }

/-! ### Memory -/

/-- The byte the Memory collaborator holds for the address `a`, which wraps modulo 4096 (R42). -/
def peek (s : State) (a : Nat) : Byte := s.mem.read (a % Config.memSize)

/-- Memory with the byte at `a mod 4096` changed (R42, R151). -/
def poke (a : Nat) (b : Byte) (s : State) : State := { s with mem := s.mem.write (a % Config.memSize) b }

/-- `MemRead(a, 1)` (R11, R41): the byte, and the state with the transaction recorded. -/
def memRead (a : Nat) (s : State) : Byte × State := (peek s a, emit (.memRead a (peek s a)) s)

/-- `MemWrite(a, 1, b)` (R11, R151). -/
def memWrite (a : Nat) (b : Byte) (s : State) : State := emit (.memWrite a b) (poke a b s)

/-- The 16-bit value of two bytes, each address wrapped on its own, the lower address most significant (R43, R44). -/
def peekWord (s : State) (a : Nat) : Word := wordOfBytes (peek s a) (peek s (a + 1))

/-! ### Open answers -/

/-- One answer: the next of the stream, or the free value of its number (log entry 10). -/
def Source.draw {α : Type} (free : Nat → α) (src : Source α) : α × Source α :=
  match src.script with
  | [] => (free src.drawn, ⟨[], src.drawn + 1⟩)
  | a :: rest => (a, ⟨rest, src.drawn + 1⟩)

/-- `RandomByte()` (R60). -/
def randomByte (s : State) : Byte × State :=
  let d := s.sources.random.draw Config.randomByte
  (d.1, emit (.randomByte d.1) { s with sources := { s.sources with random := d.2 } })

/-- `DispClear()` (R55). -/
def dispClear (s : State) : State := emit .dispClear s

/-- `DispDrawByte(xp, yp, b)` (R55, R56): the collision bit the Display answers. -/
def dispDrawByte (xp : Byte) (yp : Nat) (b : Byte) (s : State) : Bool × State :=
  let d := s.sources.collision.draw Config.collision
  (d.1, emit (.dispDrawByte xp yp b d.1) { s with sources := { s.sources with collision := d.2 } })

/-- `DispUpdate()` (R55). -/
def dispUpdate (s : State) : State := emit .dispUpdate s

/-- `KeyPressed(k)` (R151). -/
def keyPressed (k : Byte) (s : State) : Bool × State :=
  let d := s.sources.key.draw Config.keyPressed
  (d.1, emit (.keyPressed k d.1) { s with sources := { s.sources with key := d.2 } })

/-- `WaitKey()` (R151, R155). -/
def waitKey (s : State) : Option Nibble × State :=
  let d := s.sources.wait.draw Config.waitKey
  (d.1, emit (.waitKey d.1) { s with sources := { s.sources with wait := d.2 } })

/-- `TimerRead(DT)` (R151, R154): the current value of the delay counter, after whatever the host has done to it since the core last
reached it (log entry 9). -/
def timerReadDelay (s : State) : Byte × State :=
  let d := s.sources.delay.draw Config.hostDelay
  let v := d.1.getD s.delay
  (v, emit (.timerRead .dt v) { s with sources := { s.sources with delay := d.2 }, delay := v })

/-- `TimerWrite(t, v)` (R151). -/
def timerWrite (t : TimerId) (v : Byte) (s : State) : State :=
  match t with
  | .dt => emit (.timerWrite .dt v) { s with delay := v }
  | .st => emit (.timerWrite .st v) { s with sound := v }

/-! ### Faults and notices -/

/-- The 2-bit code of the latch (Table R28). -/
def faultCode (f : Option FaultCause) : BitVec 2 :=
  match f with
  | none => 0#2
  | some .stackOverflow => 1#2
  | some .stackUnderflow => 2#2

/-- `raise cause`: the latch is set and one report emitted, nothing else (R12, R183, R184, R188, R189). -/
def raiseFault (cause : FaultCause) (s : State) : State := emit (.report cause) { s with fault := some cause }

/-- `notice Unimplemented(op, a)`: the whole meaning of an unimplemented word (R12, R95). -/
def unimplemented (op a : Word) (s : State) : State := emit (.notice op a) s

/-! ### The stack -/

/-- `Stack[SP] <- w; SP <- SP + 1`, for `SP < 16` (R25, R103). -/
def pushWord (w : Word) (s : State) (h : s.sp.toNat < 16) : State :=
  { s with stack := s.stack.set s.sp.toNat w h, sp := s.sp + 1#8 }

/-- `SP <- SP - 1` and the entry at the new `SP`, which keeps its value, for `0 < SP <= 16` (R26, R101). -/
def popWord (s : State) (h : 0 < s.sp.toNat ∧ s.sp.toNat ≤ 16) : Word × State :=
  (s.stack[s.sp.toNat - 1]'(by omega), { s with sp := s.sp - 1#8 })

/-! ### Fetch -/

/-- The word at `PC` (R91). -/
def fetchWord (s : State) : Word := peekWord s s.pc.toNat

/-- The fetch with its transaction, then the advance of `PC` (R91, R92). -/
def fetchAdvance (s : State) : State := bumpPc (emit (.fetch s.pc (fetchWord s)) s)

end Sys2Proof.Machine
end

