-- ==== Sys2Proof/Machine/Operands.lean ====
section
/-! DEFINITION. The operand forms the meanings share: absolute addresses and zero extension (spec/30_encoding.md rule R73), the skip
(spec/41_control_flow.md section 4), the two-register forms of spec/42_register_alu.md, and walking addresses up from `I`. -/

namespace Sys2Proof.Machine

/-- `zext_16(addr)` (R73). -/
def addrWord (addr : Addr) : Word := addr.setWidth 16

/-- `zext_16(b)` (R104, R158). -/
def byteWord (b : Byte) : Word := b.setWidth 16

/-- Add a further 2 to the advanced `PC` when the condition holds (R105 to R109). -/
def skipIf (c : Bool) (s : State) : State := if c then bumpPc s else s

/-- `V[x] <- f(V[x], V[y])`, both read before the write, no flag (R123 to R126). -/
def combineV (f : Byte → Byte → Byte) (x y : Nibble) (s : State) : State := writeV x (f (readV x s) (readV y s)) s

/-- A result into `V[x]`, THEN a flag into `VF`: the order of `8xy4`, `8xy5` and `8xy7` (R134, D18). -/
def writeResultThenFlag (x : Nibble) (result flag : Byte) (s : State) : State := writeVF flag (writeV x result s)

/-- A flag into `VF`, THEN `V[x]` from what it holds after that: the order of `8xy6` and `8xyE` (R134, D18). -/
def writeFlagThenShift (x : Nibble) (flag : Byte) (shift : Byte → Byte) (s : State) : State :=
  writeV x (shift (readV x (writeVF flag s))) (writeVF flag s)

/-- The address `I + k` before the wrap: `I` is never truncated on the way (R42, R141, R160 to R162). -/
def indexAddr (s : State) (k : Nat) : Nat := s.i.toNat + k

/-- The steps `body 0`, ..., `body (n - 1)` in increasing order, each seeing the writes of the earlier ones (R9). -/
def forUpTo (n : Nat) (body : Nat → State → State) (s : State) : State := (List.range n).foldl (fun t k => body k t) s

end Sys2Proof.Machine
end

