-- ==== Sys2Proof/Machine/ControlFlow.lean ====
section
/-! DEFINITION. Control transfer (spec/41_control_flow.md): return, jump, call, indexed jump, skips. `PC` in a meaning is the advanced
`PC` (R92). -/

namespace Sys2Proof.Machine

/-- `00EE` RET (R101, R184). -/
def execRet (s : State) : Host.Outcome State Fault Refusal :=
  if s.sp = 0#8 then .next (raiseFault .stackUnderflow s)
  else if h : 0 < s.sp.toNat ∧ s.sp.toNat ≤ 16 then
    .next (setPc (popWord s h).1 (popWord s h).2)
  else .refused .stackPointerOutOfRange

/-- `1addr` JP addr (R102). -/
def execJp (addr : Addr) (s : State) : Host.Outcome State Fault Refusal := .next (setPc (addrWord addr) s)

/-- `2addr` CALL addr (R103, R183). -/
def execCall (addr : Addr) (s : State) : Host.Outcome State Fault Refusal :=
  if s.sp = 16#8 then .next (raiseFault .stackOverflow s)
  else if h : s.sp.toNat < 16 then .next (setPc (addrWord addr) (pushWord s.pc s h))
  else .refused .stackPointerOutOfRange

/-- `Bnnn` JP V0, addr (R104): the sum is not reduced to 12 bits. -/
def execJpV0 (addr : Addr) (s : State) : Host.Outcome State Fault Refusal :=
  .next (setPc (addrWord addr + byteWord (readV 0x0#4 s)) s)

/-- `3xkk` SE Vx, kk (R105). -/
def execSeImm (x : Nibble) (kk : Byte) (s : State) : Host.Outcome State Fault Refusal := .next (skipIf (readV x s == kk) s)

/-- `4xkk` SNE Vx, kk (R106). -/
def execSneImm (x : Nibble) (kk : Byte) (s : State) : Host.Outcome State Fault Refusal := .next (skipIf (readV x s != kk) s)

/-- `5xy0` SE Vx, Vy (R107). -/
def execSeReg (x y : Nibble) (s : State) : Host.Outcome State Fault Refusal := .next (skipIf (readV x s == readV y s) s)

/-- `9xy0` SNE Vx, Vy (R108). -/
def execSneReg (x y : Nibble) (s : State) : Host.Outcome State Fault Refusal := .next (skipIf (readV x s != readV y s) s)

end Sys2Proof.Machine
end

