-- ==== Sys2Proof/Machine/Display.lean ====
section
/-! DEFINITION. The display instructions (spec/43_display.md). -/

namespace Sys2Proof.Machine

/-- `00E0` CLS (R140): one `DispClear()`, no `DispUpdate()`. -/
def execCls (s : State) : Host.Outcome State Fault Refusal := .next (dispClear s)

/-- Row `r` of a sprite (R141): read the byte at `I + r`, draw it at row `yp + r` without reduction, make `VF` 1 on a collision. -/
def drawRow (xp yp : Byte) (r : Nat) (s : State) : State :=
  let b := memRead (indexAddr s r) s
  let c := dispDrawByte xp (yp.toNat + r) b.1 b.2
  if c.1 then writeVF 1#8 c.2 else c.2

/-- `Dxyn` DRW Vx, Vy, n (R141): the position is read before `VF` is cleared, `n` rows are drawn in order, the frame is committed also
when `n = 0`. -/
def execDrw (x y n : Nibble) (s : State) : Host.Outcome State Fault Refusal :=
  .next (dispUpdate (forUpTo n.toNat (drawRow (readV x s) (readV y s)) (writeVF 0#8 s)))

end Sys2Proof.Machine
end

