-- ==== Sys2Proof/Machine/ExtensionEF.lean ====
section
/-! DEFINITION. The optional extension `EXT_EF` (spec/44_optional_ef_extension.md): key skips, timers, key wait, index operations,
stores and loads. The spec took these from general knowledge (log entry 14); they run only where the switch is on, which the decoder
sees to (R150). -/

namespace Sys2Proof.Machine

/-- `Ex9E` SKP Vx (R152). -/
def execSkp (x : Nibble) (s : State) : Host.Outcome State Fault Refusal :=
  .next (skipIf (keyPressed (readV x s) s).1 (keyPressed (readV x s) s).2)

/-- `ExA1` SKNP Vx (R153). -/
def execSknp (x : Nibble) (s : State) : Host.Outcome State Fault Refusal :=
  .next (skipIf (!(keyPressed (readV x s) s).1) (keyPressed (readV x s) s).2)

/-- `Fx07` LD Vx, DT (R154). -/
def execLdVxDt (x : Nibble) (s : State) : Host.Outcome State Fault Refusal :=
  .next (writeV x (timerReadDelay s).1 (timerReadDelay s).2)

/-- `V[x]` receives the key, or `PC` goes back to the instruction when there is none (R155). -/
def takeKey (x : Nibble) (key : Option Nibble) (s : State) : State :=
  match key with
  | none => setPc (s.pc - 2#16) s
  | some k => writeV x (k.setWidth 8) s

/-- `Fx0A` LD Vx, K (R155): the step never blocks, waiting is running the instruction again (C5). -/
def execLdVxK (x : Nibble) (s : State) : Host.Outcome State Fault Refusal := .next (takeKey x (waitKey s).1 (waitKey s).2)

/-- `Fx15` LD DT, Vx (R156). -/
def execLdDtVx (x : Nibble) (s : State) : Host.Outcome State Fault Refusal := .next (timerWrite .dt (readV x s) s)

/-- `Fx18` LD ST, Vx (R157). -/
def execLdStVx (x : Nibble) (s : State) : Host.Outcome State Fault Refusal := .next (timerWrite .st (readV x s) s)

/-- `Fx1E` ADD I, Vx (R158): `VF` is not written. -/
def execAddI (x : Nibble) (s : State) : Host.Outcome State Fault Refusal := .next (setI (s.i + byteWord (readV x s)) s)

/-- `Fx29` LD F, Vx (R159): only the low four bits of `V[x]` select the glyph. -/
def execLdF (x : Nibble) (s : State) : Host.Outcome State Fault Refusal :=
  .next (setI (Config.fontBase + 5#16 * byteWord (readV x s &&& 0x0F#8)) s)

/-- The three decimal digits of a byte, hundreds first (R160). -/
def bcdDigit (b : Byte) (k : Nat) : Byte :=
  match k with
  | 0 => BitVec.ofNat 8 (b.toNat / 100)
  | 1 => BitVec.ofNat 8 (b.toNat / 10 % 10)
  | _ => BitVec.ofNat 8 (b.toNat % 10)

/-- `Fx33` LD B, Vx (R160). -/
def execLdB (x : Nibble) (s : State) : Host.Outcome State Fault Refusal :=
  .next (forUpTo 3 (fun k t => memWrite (indexAddr t k) (bcdDigit (readV x s) k) t) s)

/-- `Fx55` LD [I], Vx (R161): `V[0]` to `V[x]`, `I` unchanged. -/
def execStRegs (x : Nibble) (s : State) : Host.Outcome State Fault Refusal :=
  .next (forUpTo (x.toNat + 1) (fun k t => memWrite (indexAddr t k) (readV (BitVec.ofNat 4 k) t) t) s)

/-- One register of `Fx65`: `V[k]` from the byte at `I + k` (R162). -/
def loadRow (k : Nat) (s : State) : State :=
  writeV (BitVec.ofNat 4 k) (memRead (indexAddr s k) s).1 (memRead (indexAddr s k) s).2

/-- `Fx65` LD Vx, [I] (R162): `V[0]` to `V[x]`, `I` unchanged. -/
def execLdRegs (x : Nibble) (s : State) : Host.Outcome State Fault Refusal := .next (forUpTo (x.toNat + 1) loadRow s)

end Sys2Proof.Machine
end

