-- ==== Sys2Proof/Machine/Flags.lean ====
section
/-! DEFINITION. The flag computations of spec/42_register_alu.md: carry, not borrow, the bit shifted out, each as the byte that goes
to `VF`. The collision flag is the Display's answer (spec/43_display.md). -/

namespace Sys2Proof.Machine

/-- A flag as the byte `VF` receives: 1 or 0 (R21). -/
def flagByte (c : Bool) : Byte := if c then 1#8 else 0#8

/-- The 9-bit sum `zext_9(a) + zext_9(b)` (R120, R127). -/
def sum9 (a b : Byte) : BitVec 9 := a.setWidth 9 + b.setWidth 9

/-- `s[7:0]` of the 9-bit sum (R127). -/
def addResult (a b : Byte) : Byte := (sum9 a b).extractLsb' 0 8

/-- The carry `s[8]` (R127). -/
def addCarry (a b : Byte) : Bool := (sum9 a b).getLsbD 8

/-- `(a - b) mod 256` (R120). -/
def subResult (a b : Byte) : Byte := a - b

/-- NOT borrow: `a >= b` (R120, R128, R130). -/
def notBorrow (a b : Byte) : Bool := decide (b.toNat ≤ a.toNat)

/-- The byte with the bit shifted out to the right, `a AND 0x01` (R129). -/
def shiftOutRight (a : Byte) : Byte := a &&& 0x01#8

/-- `a >> 1`, bit 7 becomes 0 (R129). -/
def shiftRight1 (a : Byte) : Byte := a >>> 1

/-- The byte with the bit shifted out to the left, `(a AND 0x80) >> 7` (R131). -/
def shiftOutLeft (a : Byte) : Byte := (a &&& 0x80#8) >>> 7

/-- `(a << 1) mod 256`, bit 0 becomes 0 (R131). -/
def shiftLeft1 (a : Byte) : Byte := a <<< 1

end Sys2Proof.Machine
end

