-- ==== Sys2Proof/Machine/RegisterAlu.lean ====
section
/-! DEFINITION. Register loads and ALU operations (spec/42_register_alu.md). None touches `PC`, `SP` or `Stack`. -/

namespace Sys2Proof.Machine

/-- `6xkk` LD Vx, kk (R121). -/
def execLdImm (x : Nibble) (kk : Byte) (s : State) : Host.Outcome State Fault Refusal := .next (writeV x kk s)

/-- `7xkk` ADD Vx, kk (R122): wraps, no flag. -/
def execAddImm (x : Nibble) (kk : Byte) (s : State) : Host.Outcome State Fault Refusal :=
  .next (writeV x (addResult (readV x s) kk) s)

/-- `8xy0` LD Vx, Vy (R123). -/
def execLdReg (x y : Nibble) (s : State) : Host.Outcome State Fault Refusal := .next (writeV x (readV y s) s)

/-- `8xy1` OR Vx, Vy (R124). -/
def execOrReg (x y : Nibble) (s : State) : Host.Outcome State Fault Refusal := .next (combineV (· ||| ·) x y s)

/-- `8xy2` AND Vx, Vy (R125). -/
def execAndReg (x y : Nibble) (s : State) : Host.Outcome State Fault Refusal := .next (combineV (· &&& ·) x y s)

/-- `8xy3` XOR Vx, Vy (R126). -/
def execXorReg (x y : Nibble) (s : State) : Host.Outcome State Fault Refusal := .next (combineV (· ^^^ ·) x y s)

/-- `8xy4` ADD Vx, Vy (R127): the sum, then the carry into `VF`. -/
def execAddReg (x y : Nibble) (s : State) : Host.Outcome State Fault Refusal :=
  .next (writeResultThenFlag x (addResult (readV x s) (readV y s)) (flagByte (addCarry (readV x s) (readV y s))) s)

/-- `8xy5` SUB Vx, Vy (R128): the difference, then NOT borrow into `VF`. -/
def execSubReg (x y : Nibble) (s : State) : Host.Outcome State Fault Refusal :=
  .next (writeResultThenFlag x (subResult (readV x s) (readV y s)) (flagByte (notBorrow (readV x s) (readV y s))) s)

/-- `8xy6` SHR Vx (R129): the bit shifted out into `VF` FIRST, then the shift; `y` is ignored. -/
def execShr (x : Nibble) (s : State) : Host.Outcome State Fault Refusal :=
  .next (writeFlagThenShift x (shiftOutRight (readV x s)) shiftRight1 s)

/-- `8xy7` SUBN Vx, Vy (R130): `V[y] - V[x]`, then NOT borrow into `VF`. -/
def execSubnReg (x y : Nibble) (s : State) : Host.Outcome State Fault Refusal :=
  .next (writeResultThenFlag x (subResult (readV y s) (readV x s)) (flagByte (notBorrow (readV y s) (readV x s))) s)

/-- `8xyE` SHL Vx (R131): the bit shifted out into `VF` FIRST, then the shift; `y` is ignored. -/
def execShl (x : Nibble) (s : State) : Host.Outcome State Fault Refusal :=
  .next (writeFlagThenShift x (shiftOutLeft (readV x s)) shiftLeft1 s)

/-- `Annn` LD I, addr (R132). -/
def execLdI (addr : Addr) (s : State) : Host.Outcome State Fault Refusal := .next (setI (addrWord addr) s)

/-- `Cxkk` RND Vx, kk (R133): one draw, also when `kk = 0`. -/
def execRnd (x : Nibble) (kk : Byte) (s : State) : Host.Outcome State Fault Refusal :=
  .next (writeV x ((randomByte s).1 &&& kk) (randomByte s).2)

end Sys2Proof.Machine
end

