-- ==== Sys2Proof/Machine/Cycle.lean ====
section
/-! DEFINITION. The whole step (spec/40_step_cycle.md rule R90), what it answers the host (spec/20_memory.md rule R62), and placing one
instruction where the next step fetches. -/

namespace Sys2Proof.Machine

/-- The decode and dispatch of the word fetched from the state `s`, in the state after the advance (R93, R94, R95). -/
def runFetched (s : State) : Host.Outcome State Fault Refusal :=
  match decodeWord s.extEF (fetchWord s) with
  | .ok i => exec i (fetchAdvance s)
  | .error _ => .next (unimplemented (fetchWord s) s.pc (fetchAdvance s))

/-- One `step` (R90): a faulted core does nothing and reports its cause again (R96), any other core fetches, advances, decodes and
executes one instruction or reports an unimplemented word. -/
def cycle (s : State) : Host.Outcome State Fault Refusal :=
  match s.fault with
  | some c => .fault (.latched c)
  | none => runFetched s

/-- What `step` returns to the host (R62, R98). -/
inductive Response where
  /-- The step completed. -/
  | ok
  /-- It completed, and the word `op` fetched from `a` was unimplemented. -/
  | okNotice (op a : Word)
  /-- A fault was raised, or was latched before. -/
  | fault (cause : FaultCause)
  deriving DecidableEq, Repr

/-- The answer told by the state after a step: the latch first, then a notice emitted last. -/
def responseOf (t : State) : Response :=
  match t.fault with
  | some c => .fault c
  | none =>
    match t.events.getLast? with
    | some (.notice op a) => .okNotice op a
    | _ => .ok

/-- What the next step from `s` answers the host (R62); none where the model refuses. -/
def response (s : State) : Option Response :=
  match cycle s with
  | .next t => some (responseOf t)
  | .fault (.latched c) => some (.fault c)
  | .refused _ => none

/-- Whether a table row's word is an instruction of the extension. -/
def tableWordIsExtension (nbits w : Nat) : Bool :=
  match decodeTableWord nbits w with
  | some i => i.isExtension
  | none => false

/-- The state whose next step fetches and runs the instruction of a table row: its two bytes at `PC`, the switch on when the row needs
it (R150), the latch clear, because a faulted core fetches nothing (R96; log entry 3). -/
def placeWord (s : State) (nbits w : Nat) : State :=
  let op := tableWord nbits w
  let t := poke (s.pc.toNat + 1) (lowByte op) (poke s.pc.toNat (highByte op) s)
  { t with extEF := s.extEF || tableWordIsExtension nbits w, fault := none }

end Sys2Proof.Machine
end

