-- ==== Sys2Proof/Machine/Step.lean ====
section
/-! DEFINITION. The two names the host uses; everything they do stands in Cycle and the files under it. -/

namespace Sys2Proof.Machine

/-- One step of the machine (R90). -/
def step (s : State) : Host.Outcome State Fault Refusal := cycle s

/-- `s` with one instruction stored where the next step fetches it (log entry 3). -/
def State.withFetchWord (s : State) (nbits w : Nat) : State := placeWord s nbits w

end Sys2Proof.Machine
end

