-- ==== Sys2Proof/Machine/RefDisplay.lean ====
section
/-! DEFINITION. The reference display of spec/20_memory.md rule R57, for tests and simulation only: it is no part of the machine and
`step` does not use it. Size, pixel order and wrap are from general knowledge, as the spec says (log entry 13). -/

namespace Sys2Proof.Machine

/-- `P[py][px]`: 32 rows of 64 pixels, pixel `px` of a row is bit `px` (R57). -/
abbrev Pixels := Vector (BitVec 64) 32

/-- `clear()`: every pixel 0 (R57). -/
def RefDisplay.clear : Pixels := Vector.replicate 32 0#64

/-- The pixels a sprite byte lights at column `xp` of a row, each wrapped modulo 64, bit 7 of the byte leftmost (R57). -/
def RefDisplay.rowMask (xp b : Byte) : BitVec 64 :=
  (List.range 8).foldl (fun m k => if b.getLsbD (7 - k) then m ||| BitVec.twoPow 64 ((xp.toNat + k) % 64) else m) 0#64

/-- The row a vertical position falls on (R57). -/
def RefDisplay.rowIndex (yp : Nat) : Fin 32 := ⟨yp % 32, Nat.mod_lt yp (by decide)⟩

/-- `draw_byte(xp, yp, b)`: the collision bit, and the pixels after the XOR (R57). -/
def RefDisplay.drawByte (xp : Byte) (yp : Nat) (b : Byte) (p : Pixels) : Bool × Pixels :=
  let r := RefDisplay.rowIndex yp
  let m := RefDisplay.rowMask xp b
  (p[r] &&& m != 0#64, p.set r.val (p[r] ^^^ m) r.isLt)

/-- The pixels after a history of transactions that started from `p`, when every answer in it is the one the reference display gives;
`none` when some answer is another (R57). -/
def RefDisplay.follow (p : Pixels) : List Event → Option Pixels
  | [] => some p
  | .dispClear :: es => RefDisplay.follow RefDisplay.clear es
  | .dispDrawByte xp yp b c :: es =>
    if (RefDisplay.drawByte xp yp b p).1 = c then RefDisplay.follow (RefDisplay.drawByte xp yp b p).2 es else none
  | _ :: es => RefDisplay.follow p es

end Sys2Proof.Machine
end

