-- ==== Sys2Proof/Machine/Environment.lean ====
section
/-! DEFINITION. The host's side of the machine (spec/20_memory.md rules R62 and R64, spec/70_reset_and_hazards.md): what may happen
between two steps, never during one. Step contains no host move (log entry 15). -/

namespace Sys2Proof.Machine

/-- `reset` (R210, R211): every piece of the core's own state at its value of Table R31, nothing outside the core touched. -/
def resetCore (s : State) : State :=
  { s with v := RegisterFile.reset.v, i := RegisterFile.reset.i, pc := RegisterFile.reset.pc, sp := RegisterFile.reset.sp
           stack := RegisterFile.reset.stack, fault := RegisterFile.reset.fault }

/-- What the host can do between two steps (Table R64). Keys and pixels are seen only through free answers (log entries 6, 7). -/
inductive HostMove where
  /-- Apply `reset` (R212). -/
  | reset
  /-- Write one byte of memory at one of its 4096 addresses (R40, R53, R64). -/
  | writeMem (a : Addr) (b : Byte)
  /-- Change a timer counter: the decrement at the host's own cadence, or any other change (R59, R64, D22). -/
  | setTimer (t : TimerId) (v : Byte)
  deriving DecidableEq, Repr

/-- One move of the host. It is no transaction of the core, so the event history does not change. -/
def hostAct (m : HostMove) (s : State) : State :=
  match m with
  | .reset => resetCore s
  | .writeMem a b => poke a.toNat b s
  | .setTimer .dt v => { s with delay := v }
  | .setTimer .st v => { s with sound := v }

/-- Bytes placed at rising addresses from `a` (R47, R214). DESIGN CHOICE (log entry 21): past 0xFFF the addresses go on at 0x000, and
past 4096 bytes a later byte replaces an earlier one; the spec says nothing of such a program. -/
def placeBytes (a : Nat) : List Byte → State → State
  | [], s => s
  | b :: bs, s => placeBytes (a + 1) bs (poke a b s)

/-- The ROM loader: the program's first byte at 0x200 (R47, R214). A program past 0xFFF: log entry 21. -/
def loadProgram (bytes : List Byte) (s : State) : State := placeBytes Config.loadAddr bytes s

end Sys2Proof.Machine
end

