-- ==== Sys2Proof/Safety.lean ====
section
/-! DEFINITION. What claims about the machine are stated with: the invariant, the reachable states, the end of a run as
spec/70_reset_and_hazards.md rule R218 defines it, frames, and the tables of the spec that claims quote. -/

namespace Sys2Proof.Machine

/-- The invariant of spec/10_state.md rule R27 and of the memory's form: memory is canonical, `SP` is at most 16, and a machine without
the extension has `I` at most 0xFFF (R22). -/
abbrev State.Inv (s : State) : Prop :=
  s.mem.wf = true ∧ s.sp.toNat ≤ 16 ∧ (s.extEF = false → s.i.toNat ≤ 0xFFF)

/-- The states a machine with the switch at `ext` can come to: from reset over any memory contents and any answer sources, by its own
steps and the host's moves between them (R27, R64, R212, R218). -/
inductive Reachable (ext : Bool) : State → Prop where
  | start (mem0 : Memory) (src : Sources) (h : mem0.wf = true) :
      Reachable ext { State.powerOn mem0 with extEF := ext, sources := src }
  | step (s t : State) (h : Reachable ext s) (hs : step s = .next t) : Reachable ext t
  | host (s : State) (m : HostMove) (h : Reachable ext s) : Reachable ext (hostAct m s)

/-- A run has ended well: no fault is latched and the word at `PC`, which is at most 0xFFF, is a jump to itself (R218). -/
def State.EndedWell (s : State) : Prop :=
  s.fault = none ∧ s.pc.toNat ≤ 0xFFF ∧ fetchWord s = encodeWord (.jp (s.pc.setWidth 12))

/-- A run has ended badly: a fault is latched (R218). -/
def State.EndedBadly (s : State) : Prop := s.fault ≠ none

/-- The next step completes without raising a fault. -/
def State.StepsSafely (s : State) : Prop := ∃ t, step s = .next t ∧ t.fault = none

/-! ### Frames -/

/-- The parts of a state a frame names; `extEF` is not among them, because nothing may change it. -/
inductive Part where
  | v | i | pc | sp | stack | fault | mem | sources | delay | sound | events
  deriving DecidableEq, Repr

/-- `t` is `s` but for the parts named: every other register, every byte of memory, every collaborator and the history are as before,
and the switch is. -/
def State.SameBut (changed : List Part) (s t : State) : Prop :=
  (.v ∈ changed ∨ ∀ z, readV z t = readV z s) ∧ (.i ∈ changed ∨ t.i = s.i) ∧ (.pc ∈ changed ∨ t.pc = s.pc) ∧
  (.sp ∈ changed ∨ t.sp = s.sp) ∧ (.stack ∈ changed ∨ t.stack = s.stack) ∧ (.fault ∈ changed ∨ t.fault = s.fault) ∧
  (.mem ∈ changed ∨ (t.mem = s.mem ∧ ∀ a, peek t a = peek s a)) ∧ (.sources ∈ changed ∨ t.sources = s.sources) ∧
  (.delay ∈ changed ∨ t.delay = s.delay) ∧ (.sound ∈ changed ∨ t.sound = s.sound) ∧
  (.events ∈ changed ∨ t.events = s.events) ∧ t.extEF = s.extEF

/-- The registers `V` an instruction may write: the column "writes" of spec/10_state.md Table R33, the destinations of rules R154, R155
and R162 for the extension. -/
def writesV (i : Instr) (z : Nibble) : Bool :=
  match i with
  | .cls | .ret | .jp _ | .call _ | .seImm _ _ | .sneImm _ _ | .seReg _ _ | .sneReg _ _ | .ldI _ | .jpV0 _ => false
  | .ldImm x _ | .addImm x _ | .ldReg x _ | .orReg x _ | .andReg x _ | .xorReg x _ | .rnd x _ => z == x
  | .addReg x _ | .subReg x _ | .shr x _ | .subnReg x _ | .shl x _ => z == x || z == 0xF#4
  | .drw _ _ _ => z == 0xF#4
  | .ldVxDt x | .ldVxK x => z == x
  | .ldRegs x => decide (z.toNat ≤ x.toNat)
  | .skp _ | .sknp _ | .ldDtVx _ | .ldStVx _ | .addI _ | .ldF _ | .ldB _ | .stRegs _ => false

/-- The parts of the state an instruction may write beyond the fetch: Table R33 for the Register File, Table R63 for the history, the
rules R152 to R162 for the extension. -/
def writes (i : Instr) : List Part :=
  match i with
  | .cls => [.events]
  | .ret => [.sp, .pc, .fault, .events]
  | .call _ => [.stack, .sp, .pc, .fault, .events]
  | .jp _ | .jpV0 _ | .seImm _ _ | .sneImm _ _ | .seReg _ _ | .sneReg _ _ => [.pc]
  | .ldImm _ _ | .addImm _ _ | .ldReg _ _ | .orReg _ _ | .andReg _ _ | .xorReg _ _ => [.v]
  | .addReg _ _ | .subReg _ _ | .shr _ _ | .subnReg _ _ | .shl _ _ => [.v]
  | .ldI _ | .addI _ | .ldF _ => [.i]
  | .rnd _ _ | .drw _ _ _ => [.v, .sources, .events]
  | .skp _ | .sknp _ => [.pc, .sources, .events]
  | .ldVxDt _ => [.v, .delay, .sources, .events]
  | .ldVxK _ => [.v, .pc, .sources, .events]
  | .ldDtVx _ => [.delay, .events]
  | .ldStVx _ => [.sound, .events]
  | .ldB _ | .stRegs _ => [.mem, .events]
  | .ldRegs _ => [.v, .events]

/-- A source after one answer has been drawn from it (log entry 10). -/
def Source.afterOne {α : Type} (src : Source α) : Source α := ⟨src.script.tail, src.drawn + 1⟩

/-- How many bytes an instruction stores, at `indexAddr s 0`, `indexAddr s 1` and so on, each address wrapped (R160, R161); the others
store none (R41, Table R33). -/
def storedBytes (i : Instr) : Nat :=
  match i with
  | .ldB _ => 3
  | .stRegs x => x.toNat + 1
  | .cls | .ret | .jp _ | .call _ | .seImm _ _ | .sneImm _ _ | .seReg _ _ | .ldImm _ _ | .addImm _ _ | .ldReg _ _ => 0
  | .orReg _ _ | .andReg _ _ | .xorReg _ _ | .addReg _ _ | .subReg _ _ | .shr _ _ | .subnReg _ _ | .shl _ _ => 0
  | .sneReg _ _ | .ldI _ | .jpV0 _ | .rnd _ _ | .drw _ _ _ | .skp _ | .sknp _ | .ldVxDt _ | .ldVxK _ => 0
  | .ldDtVx _ | .ldStVx _ | .addI _ | .ldF _ | .ldRegs _ => 0

/-! ### Tables -/

/-- The unimplemented words of spec/30_encoding.md Table R77, as numbers. -/
def unimplementedR77 (w : Nat) : Bool :=
  (decide (w < 0x1000) && w != 0x00E0 && w != 0x00EE) ||
  (w / 4096 == 0x5 && w % 16 != 0) ||
  (w / 4096 == 0x8 && [0x8, 0x9, 0xA, 0xB, 0xC, 0xD, 0xF].contains (w % 16)) ||
  (w / 4096 == 0x9 && w % 16 != 0) ||
  w / 4096 == 0xE || w / 4096 == 0xF

/-- The words of the eleven patterns that leave Table R77 with the extension on (spec/44_optional_ef_extension.md rule R163). -/
def extensionWord (w : Nat) : Bool :=
  (w / 4096 == 0xE && [0x9E, 0xA1].contains (w % 256)) ||
  (w / 4096 == 0xF && [0x07, 0x0A, 0x15, 0x18, 0x1E, 0x29, 0x33, 0x55, 0x65].contains (w % 256))

/-- The transactions of the rows of `Dxyn` with the Display's answers `cs`, one for each row (spec/20_memory.md Table R63). -/
def drawTransactions (s : State) (xp yp : Byte) (cs : List Bool) : List Event :=
  cs.zipIdx.flatMap fun c =>
    [.memRead (s.i.toNat + c.2) (peek s (s.i.toNat + c.2)),
     .dispDrawByte xp (yp.toNat + c.2) (peek s (s.i.toNat + c.2)) c.1]

/-- Steps of the core and moves of the host other than `reset`, in which no `2addr` executes with `SP = k`
(spec/41_control_flow.md rule R110). -/
inductive RunWithoutCallAt (k : Nat) : State → State → Prop where
  | refl (s : State) : RunWithoutCallAt k s s
  | step (s t u : State) (hc : ¬(s.sp.toNat = k ∧ ∃ addr, decodeWord s.extEF (fetchWord s) = .ok (.call addr)))
      (hs : step s = .next t) (h : RunWithoutCallAt k t u) : RunWithoutCallAt k s u
  | host (s u : State) (m : HostMove) (hm : m ≠ .reset) (h : RunWithoutCallAt k (hostAct m s) u) : RunWithoutCallAt k s u

end Sys2Proof.Machine
end

