-- ==== Sys2Proof/Certificates/Slice0/Obligations.lean ====
section
/-! DEFINITION. The statements for the provers, in the order of OBLIGATIONS.json. A premise `s.mem.wf` or `s.Inv` is the invariant whose
keeping is StepKeepsInv: it rules out states that no run reaches. -/

open Sys2Proof Sys2Proof.Machine

/-! ### Encoding -/

/-- Words written out bit by bit from the formats of Table R74 and the opcodes of Tables R75 and R150 decode to their instructions;
with the switch off a word of the extension does not. -/
def Obligations.DecodesWordsOfTheSpec : Prop :=
  decodeWord false 0b0000000011100000#16 = .ok .cls ∧
  decodeWord false 0b0010001000010000#16 = .ok (.call 0x210#12) ∧
  decodeWord false 0b0100101101111101#16 = .ok (.sneImm 0xB#4 0x7D#8) ∧
  decodeWord false 0b1000101010110101#16 = .ok (.subReg 0xA#4 0xB#4) ∧
  decodeWord false 0b1101000000010010#16 = .ok (.drw 0x0#4 0x1#4 0x2#4) ∧
  decodeWord true 0b1111000000110011#16 = .ok (.ldB 0x0#4) ∧
  decodeWord false 0b1111000000110011#16 = .error (.unimplemented 0xF033#16)

/-- Decode and encode agree: the bytes of every instruction a machine has, whatever follows them, decode to that instruction with every
operand, and what follows is left. -/
def Obligations.DecodeOfEncode : Prop :=
  ∀ (ext : Bool) (i : Instr) (rest : List Byte), i.wellFormed ext = true → decode ext (encode i ++ rest) = .ok (i, rest)

/-- No word is read as an instruction that is encoded otherwise: what decodes, encodes back to the same word, and is an instruction
that the machine has. For `8xy6` and `8xyE` this rests on the model's choice that their constructors keep the ignored `y` (log entry 16,
DEDUCED from R76: a word decodes "to one row with its field values"). -/
def Obligations.EncodeOfDecode : Prop :=
  ∀ (ext : Bool) (op : Word) (i : Instr), decodeWord ext op = .ok i → encodeWord i = op ∧ i.wellFormed ext = true

/-- R76: the rows of the opcode map are pairwise disjoint; the decoder is total: every word decodes to an instruction with the word's own
field values (it encodes back to the word, `y` of the shifts among them: log entry 16), of the row the word selects, or is rejected as
unimplemented, and that exactly when it selects none; the field `y` of the two shifts does not matter. The extension's rows (Table R150,
log entry 14) are in the map as well; 23 rows are the baseline's. -/
def Obligations.OpcodeMapDisjointAndTotal : Prop :=
  (opcodeMap.Nodup ∧ (opcodeMap.filter (fun r => !r.ext)).length = 23) ∧
  (∀ op : Word, ∀ r ∈ opcodeMap, ∀ r' ∈ opcodeMap, r.selectedBy true op = true → r'.selectedBy true op = true → r = r') ∧
  (∀ (ext : Bool) (op : Word),
    (∃ i, decodeWord ext op = .ok i ∧ encodeWord i = op) ∨ decodeWord ext op = .error (.unimplemented op)) ∧
  (∀ (ext : Bool) (op : Word) (i : Instr), decodeWord ext op = .ok i → i.row ∈ opcodeMap ∧ i.row.selectedBy ext op = true) ∧
  (∀ (ext : Bool) (op : Word), decodeWord ext op = .error (.unimplemented op) ↔ ∀ r ∈ opcodeMap, r.selectedBy ext op = false) ∧
  (∀ (x y y' : Nibble) (s : State), exec (.shr x y) s = exec (.shr x y') s ∧ exec (.shl x y) s = exec (.shl x y') s)

/-- R77, R95, R182, and R163 for the clauses on the extension (general knowledge, log entry 14): without the extension the unimplemented words are exactly those of Table R77, 21758 of them; the extension takes
the words of its eleven patterns away and no other, which leaves 21582, 0xFFFF among them. A step on any of them completes: `PC`
advances, one notice with the word and its address follows the fetch, nothing else changes, `FAULT` stays clear. -/
def Obligations.UnimplementedWords : Prop :=
  (∀ op : Word, decodeWord false op = .error (.unimplemented op) ↔ unimplementedR77 op.toNat = true) ∧
  (List.range 65536).countP unimplementedR77 = 21758 ∧
  (∀ op : Word, decodeWord true op = .error (.unimplemented op) ↔
    (unimplementedR77 op.toNat = true ∧ extensionWord op.toNat = false)) ∧
  (List.range 65536).countP (fun w => unimplementedR77 w && !extensionWord w) = 21582 ∧
  decodeWord true 0xFFFF#16 = .error (.unimplemented 0xFFFF#16) ∧
  (∀ s : State, s.fault = none → decodeWord s.extEF (fetchWord s) = .error (.unimplemented (fetchWord s)) →
    ∃ t, step s = .next t ∧ t.pc = s.pc + 2#16 ∧ t.fault = none ∧
      t.events = s.events ++ [.fetch s.pc (fetchWord s), .notice (fetchWord s) s.pc] ∧ s.SameBut [.pc, .events] t)

/-- R150: with the switch off every word `Exxx` and `Fxxx` is unimplemented; with it on exactly the words of the eleven patterns become
instructions, and no other word is decoded otherwise than before. -/
def Obligations.ExtensionSwitch : Prop :=
  State.reset.extEF = false ∧
  (∀ op : Word, 0xE ≤ op.toNat / 4096 → decodeWord false op = .error (.unimplemented op)) ∧
  (∀ op : Word, extensionWord op.toNat = true → ∃ i, decodeWord true op = .ok i ∧ i.isExtension = true) ∧
  (∀ op : Word, extensionWord op.toNat = false → decodeWord true op = decodeWord false op)

/-- What the host asks of a table row: the decoder reads every instruction's word back, and the state in which that word is placed runs
that instruction as its next step. -/
def Obligations.PlacedInstructionRuns : Prop :=
  ∀ (i : Instr) (s : State), s.mem.wf = true →
    decodeTableWord 16 (encodeWord i).toNat = some i ∧
    step (s.withFetchWord 16 (encodeWord i).toNat) = exec i (fetchAdvance (s.withFetchWord 16 (encodeWord i).toNat)) ∧
    (fetchAdvance (s.withFetchWord 16 (encodeWord i).toNat)).pc = s.pc + 2#16

/-! ### The step -/

/-- A STEP RUNS THE DECODED INSTRUCTION (R90, R91, R92, R94, R96): a faulted core answers its fault; any other reads the big-endian word at
`PC`, each byte address wrapped, advances `PC` by 2 with the fetch recorded, and executes the instruction the word decodes to in that
state, or emits the notice when it decodes to none. -/
def Obligations.StepRunsDecodedInstruction : Prop :=
  ∀ s : State,
    (∀ c, s.fault = some c → step s = .fault (.latched c)) ∧
    (s.fault = none →
      let op : Word := wordOfBytes (s.mem.read (s.pc.toNat % 4096)) (s.mem.read ((s.pc.toNat + 1) % 4096))
      let advanced : State := { s with pc := s.pc + 2#16, events := s.events ++ [.fetch s.pc op] }
      (∀ i, decodeWord s.extEF op = .ok i → step s = exec i advanced) ∧
      (∀ e, decodeWord s.extEF op = .error e →
        step s = .next { advanced with events := advanced.events ++ [.notice op s.pc] }))

/-- R62, R96, R98: what a step returns. A faulted core returns its fault again, in every state; from every other state of the invariant a
step returns `fault` exactly when the word is a call with a full stack or a return with an empty one, `ok` with a notice exactly when the
word is unimplemented, and `ok` otherwise. That the answer is read off the state after the step is the model's choice (log entry 19). -/
def Obligations.ResponseOfEveryStep : Prop :=
  (∀ (s : State) (c : FaultCause), s.fault = some c → response s = some (.fault c)) ∧
  (∀ s : State, s.Inv → s.fault = none →
    response s =
      match decodeWord s.extEF (fetchWord s) with
      | .error _ => some (.okNotice (fetchWord s) s.pc)
      | .ok (.call _) => if s.sp = 16#8 then some (.fault .stackOverflow) else some .ok
      | .ok .ret => if s.sp = 0#8 then some (.fault .stackUnderflow) else some .ok
      | .ok _ => some .ok)

/-- R63: the transactions of one baseline step, in order: the fetch first, then those of Table R63, and none from a faulted core. -/
def Obligations.TransactionsOfAStep : Prop :=
  (∀ s : State, s.fault ≠ none → ∀ t, step s ≠ .next t) ∧
  ∀ s t : State, s.fault = none → s.extEF = false → step s = .next t →
    ∃ es, t.events = s.events ++ .fetch s.pc (fetchWord s) :: es ∧
      match decodeWord false (fetchWord s) with
      | .error _ => es = [.notice (fetchWord s) s.pc]
      | .ok .cls => es = [.dispClear]
      | .ok (.rnd _ _) => ∃ b, es = [.randomByte b]
      | .ok (.drw x y n) => ∃ cs : List Bool, cs.length = n.toNat ∧
          es = drawTransactions s (readV x s) (readV y s) cs ++ [.dispUpdate]
      | .ok (.call _) => es = if s.sp = 16#8 then [.report .stackOverflow] else []
      | .ok .ret => es = if s.sp = 0#8 then [.report .stackUnderflow] else []
      | .ok _ => es = []

/-- R24: how `PC` changes in a baseline step: 2 more, then overwritten by a jump, a call or a return, 2 more again by a skip that holds;
all modulo 65536, nothing reduced modulo 4096. -/
def Obligations.PcOfEveryStep : Prop :=
  ∀ s t : State, s.fault = none → s.extEF = false → step s = .next t →
    t.pc =
      match decodeWord false (fetchWord s) with
      | .ok (.jp addr) => addr.setWidth 16
      | .ok (.call addr) => if s.sp = 16#8 then s.pc + 2#16 else addr.setWidth 16
      | .ok .ret => if s.sp = 0#8 then s.pc + 2#16 else s.stack[s.sp.toNat - 1]?.getD 0#16
      | .ok (.jpV0 addr) => addr.setWidth 16 + (readV 0x0#4 s).setWidth 16
      | .ok (.seImm x kk) => if readV x s = kk then s.pc + 4#16 else s.pc + 2#16
      | .ok (.sneImm x kk) => if readV x s = kk then s.pc + 2#16 else s.pc + 4#16
      | .ok (.seReg x y) => if readV x s = readV y s then s.pc + 4#16 else s.pc + 2#16
      | .ok (.sneReg x y) => if readV x s = readV y s then s.pc + 2#16 else s.pc + 4#16
      | _ => s.pc + 2#16

/-- The frame of every instruction, forms with `x` or `y` = F included: nothing changes but the parts and the `V` registers that the
"writes" column of Table R33 (for the extension, rules R152 to R162) names; and of memory nothing but the bytes stored, which lie at
`indexAddr s 0` upward, each address wrapped: three for `Fx33`, `x + 1` for `Fx55`, none for any other. -/
def Obligations.EveryInstructionChangesOnlyWhatItWrites : Prop :=
  ∀ (i : Instr) (s t : State), exec i s = .next t →
    s.SameBut (writes i) t ∧ (∀ z, writesV i z = false → readV z t = readV z s) ∧
    ∀ a, (∀ k, k < storedBytes i → a % 4096 ≠ indexAddr s k % 4096) → peek t a = peek s a

/-- Isolation: what an instruction other than the timer read does to the Register File, memory and the answer sources depends on those
alone, not on the timer counters, the switch or the history. -/
def Obligations.EffectDependsOnlyOnCoreMemoryAndAnswers : Prop :=
  ∀ (i : Instr) (s s' t : State), (∀ x, i ≠ .ldVxDt x) →
    s.registerFile = s'.registerFile → s.mem = s'.mem → s.sources = s'.sources → exec i s = .next t →
    ∃ t', exec i s' = .next t' ∧ t'.registerFile = t.registerFile ∧ t'.mem = t.mem ∧ t'.sources = t.sources

/-! ### Memory -/

/-- R42, R43, R44: a byte read takes the address modulo 4096; the word at `a` is the byte at `a`, high, and the byte at `a + 1`, low, each
wrapped on its own, so the word at 0xFFF has its low byte from 0x000. -/
def Obligations.AddressWrapAndByteOrder : Prop :=
  ∀ (s : State) (a : Nat),
    (memRead a s).1 = s.mem.read (a % 4096) ∧
    (peekWord s a).extractLsb' 8 8 = s.mem.read (a % 4096) ∧
    (peekWord s a).extractLsb' 0 8 = s.mem.read ((a + 1) % 4096) ∧
    (peekWord s 0xFFF).extractLsb' 0 8 = s.mem.read 0

/-- A byte written is read back at every address equal to its own modulo 4096, every other byte is as before, the canonical form is kept,
and the write equals writing nothing when the byte was there already. -/
def Obligations.ByteWriteThenRead : Prop :=
  ∀ (s : State) (a c : Nat) (b : Byte), s.mem.wf = true →
    peek (memWrite a b s) c = (if c % 4096 = a % 4096 then b else peek s c) ∧
    (memWrite a b s).mem.wf = true ∧
    (peek s a = b → (memWrite a b s).mem = s.mem)

/-- R53: a step of the baseline core never writes memory, and a byte the host writes between two steps is what the very next fetch or
sprite read sees. -/
def Obligations.BaselineNeverWritesMemory : Prop :=
  (∀ s t : State, s.extEF = false → step s = .next t → t.mem = s.mem) ∧
  (∀ (s : State) (a : Addr) (c : Nat) (b : Byte), s.mem.wf = true →
    (memRead c (hostAct (.writeMem a b) s)).1 = (if c % 4096 = a.toNat then b else peek s c) ∧
    fetchWord (hostAct (.writeMem a b) s) =
      wordOfBytes (if s.pc.toNat % 4096 = a.toNat then b else peek s s.pc.toNat)
        (if (s.pc.toNat + 1) % 4096 = a.toNat then b else peek s (s.pc.toNat + 1)))

/-! ### Control transfer -/

/-- R101, R184: a return with `0 < SP <= 16` pops the entry at `SP - 1` into `PC`, the entry staying; with `SP = 0` it raises StackUnderflow
and changes nothing but the latch and the history. -/
def Obligations.RetResult : Prop :=
  (∀ s : State, ∀ h : 0 < s.sp.toNat ∧ s.sp.toNat ≤ 16,
    ∃ t, exec .ret s = .next t ∧ t.sp.toNat = s.sp.toNat - 1 ∧ t.pc = s.stack[s.sp.toNat - 1]'(by omega) ∧
      s.SameBut [.sp, .pc] t) ∧
  (∀ s : State, s.sp = 0#8 →
    ∃ t, exec .ret s = .next t ∧ t.fault = some .stackUnderflow ∧ faultCode t.fault = 2#2 ∧
      t.events = s.events ++ [.report .stackUnderflow] ∧ s.SameBut [.fault, .events] t)

/-- R102: a jump writes the zero-extended address into `PC` and nothing else. -/
def Obligations.JpResult : Prop :=
  ∀ (addr : Addr) (s : State), ∃ t, exec (.jp addr) s = .next t ∧ t.pc.toNat = addr.toNat ∧ s.SameBut [.pc] t

/-- R103, R183: a call with `SP < 16` pushes the advanced `PC` unreduced and jumps; with `SP = 16` it raises StackOverflow and changes
nothing but the latch and the history. -/
def Obligations.CallResult : Prop :=
  (∀ (addr : Addr) (s : State), ∀ h : s.sp.toNat < 16,
    ∃ t, exec (.call addr) s = .next t ∧ t.stack = s.stack.set s.sp.toNat s.pc ∧ t.sp.toNat = s.sp.toNat + 1 ∧
      t.pc.toNat = addr.toNat ∧ s.SameBut [.stack, .sp, .pc] t) ∧
  (∀ (addr : Addr) (s : State), s.sp = 16#8 →
    ∃ t, exec (.call addr) s = .next t ∧ t.fault = some .stackOverflow ∧ faultCode t.fault = 1#2 ∧
      t.events = s.events ++ [.report .stackOverflow] ∧ s.SameBut [.fault, .events] t)

/-- The two stops: with `SP` at 17 to 255, which no execution produces, call and return are refused by name. The model's choice (log
entry 11), which the spec allows (I16). -/
def Obligations.StackPointerOutOfRangeIsRefused : Prop :=
  ∀ (addr : Addr) (s : State), 16 < s.sp.toNat →
    exec (.call addr) s = .refused .stackPointerOutOfRange ∧ exec .ret s = .refused .stackPointerOutOfRange

/-- R104: the indexed jump adds `V[0]`, whatever the address's first digit names, without reduction to 12 bits. -/
def Obligations.JpV0Result : Prop :=
  ∀ (addr : Addr) (s : State), ∃ t, exec (.jpV0 addr) s = .next t ∧
    t.pc.toNat = addr.toNat + (readV 0x0#4 s).toNat ∧ s.SameBut [.pc] t

/-- R105 to R108: the four skips add 2 to the advanced `PC` exactly when their condition holds and change nothing else. -/
def Obligations.SkipResults : Prop :=
  ∀ (x y : Nibble) (kk : Byte) (s : State),
    (∃ t, exec (.seImm x kk) s = .next t ∧ t.pc = (if readV x s = kk then s.pc + 2#16 else s.pc) ∧ s.SameBut [.pc] t) ∧
    (∃ t, exec (.sneImm x kk) s = .next t ∧ t.pc = (if readV x s = kk then s.pc else s.pc + 2#16) ∧ s.SameBut [.pc] t) ∧
    (∃ t, exec (.seReg x y) s = .next t ∧ t.pc = (if readV x s = readV y s then s.pc + 2#16 else s.pc) ∧ s.SameBut [.pc] t) ∧
    (∃ t, exec (.sneReg x y) s = .next t ∧ t.pc = (if readV x s = readV y s then s.pc else s.pc + 2#16) ∧ s.SameBut [.pc] t)

/-- R110: call and return are inverse. A call that executes at `SP = k < 16`, then any run in which no call executes at `SP = k`, then a
return at `SP = k + 1`: `PC` is the address after the call and `SP` is `k` again. -/
def Obligations.CallReturnRoundTrip : Prop :=
  ∀ (s t u : State) (addr : Addr), s.fault = none → s.sp.toNat < 16 → decodeWord s.extEF (fetchWord s) = .ok (.call addr) →
    step s = .next t → RunWithoutCallAt s.sp.toNat t u →
    u.fault = none → u.sp.toNat = s.sp.toNat + 1 → decodeWord u.extEF (fetchWord u) = .ok .ret →
    ∃ w, step u = .next w ∧ w.pc = s.pc + 2#16 ∧ w.sp = s.sp

/-! ### Register loads and ALU -/

/-- R121, R122, R123: the loads and the immediate add write `V[x]`, `x = F` like any other, and nothing else; no flag. -/
def Obligations.LoadAndAddImmediateResults : Prop :=
  ∀ (x y : Nibble) (kk : Byte) (s : State),
    (∃ t, exec (.ldImm x kk) s = .next t ∧ readV x t = kk ∧ (∀ z, z ≠ x → readV z t = readV z s) ∧ s.SameBut [.v] t) ∧
    (∃ t, exec (.addImm x kk) s = .next t ∧ (readV x t).toNat = ((readV x s).toNat + kk.toNat) % 256 ∧
      (∀ z, z ≠ x → readV z t = readV z s) ∧ s.SameBut [.v] t) ∧
    (∃ t, exec (.ldReg x y) s = .next t ∧ readV x t = readV y s ∧ (∀ z, z ≠ x → readV z t = readV z s) ∧ s.SameBut [.v] t)

/-- R124, R125, R126: the three logic operations act on every bit of `V[x]`, leave `VF` alone unless it is `V[x]`, and change nothing
else. -/
def Obligations.LogicResults : Prop :=
  ∀ (x y : Nibble) (s : State),
    (∃ t, exec (.orReg x y) s = .next t ∧ (∀ k, (readV x t).getLsbD k = ((readV x s).getLsbD k || (readV y s).getLsbD k)) ∧
      (∀ z, z ≠ x → readV z t = readV z s) ∧ s.SameBut [.v] t) ∧
    (∃ t, exec (.andReg x y) s = .next t ∧ (∀ k, (readV x t).getLsbD k = ((readV x s).getLsbD k && (readV y s).getLsbD k)) ∧
      (∀ z, z ≠ x → readV z t = readV z s) ∧ s.SameBut [.v] t) ∧
    (∃ t, exec (.xorReg x y) s = .next t ∧ (∀ k, (readV x t).getLsbD k = ((readV x s).getLsbD k != (readV y s).getLsbD k)) ∧
      (∀ z, z ≠ x → readV z t = readV z s) ∧ s.SameBut [.v] t)

/-- R127: the sum modulo 256 in `V[x]`, then the carry in `VF`; with `x = F` the carry survives. -/
def Obligations.AddRegResult : Prop :=
  ∀ (x y : Nibble) (s : State), ∃ t, exec (.addReg x y) s = .next t ∧
    (x ≠ 0xF#4 → (readV x t).toNat = ((readV x s).toNat + (readV y s).toNat) % 256) ∧
    vf t = (if 256 ≤ (readV x s).toNat + (readV y s).toNat then 1#8 else 0#8) ∧
    (∀ z, z ≠ x → z ≠ 0xF#4 → readV z t = readV z s) ∧ s.SameBut [.v] t

/-- R128, R130: the differences modulo 256 in `V[x]`, then NOT borrow in `VF`, 1 when the operands are equal; with `x = F` the flag
survives. -/
def Obligations.SubtractResults : Prop :=
  ∀ (x y : Nibble) (s : State),
    (∃ t, exec (.subReg x y) s = .next t ∧
      (x ≠ 0xF#4 → (readV x t).toNat = ((readV x s).toNat + 256 - (readV y s).toNat) % 256) ∧
      vf t = (if (readV y s).toNat ≤ (readV x s).toNat then 1#8 else 0#8) ∧
      (∀ z, z ≠ x → z ≠ 0xF#4 → readV z t = readV z s) ∧ s.SameBut [.v] t) ∧
    (∃ t, exec (.subnReg x y) s = .next t ∧
      (x ≠ 0xF#4 → (readV x t).toNat = ((readV y s).toNat + 256 - (readV x s).toNat) % 256) ∧
      vf t = (if (readV x s).toNat ≤ (readV y s).toNat then 1#8 else 0#8) ∧
      (∀ z, z ≠ x → z ≠ 0xF#4 → readV z t = readV z s) ∧ s.SameBut [.v] t)

/-- R129, R131: the shifts put the bit shifted out in `VF` first; with `x = F` that flag is then shifted itself: 0 for SHR, twice the old
bit 7 for SHL. -/
def Obligations.ShiftResults : Prop :=
  ∀ (x y : Nibble) (s : State),
    (∃ t, exec (.shr x y) s = .next t ∧
      (x ≠ 0xF#4 → (readV x t).toNat = (readV x s).toNat / 2 ∧ (vf t).toNat = (readV x s).toNat % 2) ∧
      (x = 0xF#4 → vf t = 0#8) ∧ (∀ z, z ≠ x → z ≠ 0xF#4 → readV z t = readV z s) ∧ s.SameBut [.v] t) ∧
    (∃ t, exec (.shl x y) s = .next t ∧
      (x ≠ 0xF#4 → (readV x t).toNat = (readV x s).toNat * 2 % 256 ∧ (vf t).toNat = (readV x s).toNat / 128) ∧
      (x = 0xF#4 → (vf t).toNat = 2 * ((vf s).toNat / 128)) ∧
      (∀ z, z ≠ x → z ≠ 0xF#4 → readV z t = readV z s) ∧ s.SameBut [.v] t)

/-- R134: every cell of Table R134, `VF` as an operand of a flag-writing ALU instruction; `f` is the old `VF`, `v` the other register. -/
def Obligations.FlagRegisterAsOperand : Prop :=
  ∀ (r : Nibble) (s : State), r ≠ 0xF#4 → ∀ f v : Nat, (vf s).toNat = f → (readV r s).toNat = v →
    ((∃ t, exec (.addReg 0xF#4 r) s = .next t ∧ (vf t).toNat = if 256 ≤ f + v then 1 else 0) ∧
     (∃ t, exec (.subReg 0xF#4 r) s = .next t ∧ (vf t).toNat = if v ≤ f then 1 else 0) ∧
     (∃ t, exec (.subnReg 0xF#4 r) s = .next t ∧ (vf t).toNat = if f ≤ v then 1 else 0) ∧
     (∃ t, exec (.shr 0xF#4 r) s = .next t ∧ (vf t).toNat = 0) ∧
     (∃ t, exec (.shl 0xF#4 r) s = .next t ∧ (vf t).toNat = if 128 ≤ f then 2 else 0)) ∧
    ((∃ t, exec (.addReg r 0xF#4) s = .next t ∧ (readV r t).toNat = (v + f) % 256 ∧
        (vf t).toNat = if 256 ≤ v + f then 1 else 0) ∧
     (∃ t, exec (.subReg r 0xF#4) s = .next t ∧ (readV r t).toNat = (v + 256 - f) % 256 ∧
        (vf t).toNat = if f ≤ v then 1 else 0) ∧
     (∃ t, exec (.subnReg r 0xF#4) s = .next t ∧ (readV r t).toNat = (f + 256 - v) % 256 ∧
        (vf t).toNat = if v ≤ f then 1 else 0) ∧
     (∃ t, exec (.shr r 0xF#4) s = .next t ∧ (readV r t).toNat = v / 2 ∧ (vf t).toNat = v % 2) ∧
     (∃ t, exec (.shl r 0xF#4) s = .next t ∧ (readV r t).toNat = v * 2 % 256 ∧ (vf t).toNat = v / 128)) ∧
    ((∃ t, exec (.addReg 0xF#4 0xF#4) s = .next t ∧ (vf t).toNat = if 128 ≤ f then 1 else 0) ∧
     (∃ t, exec (.subReg 0xF#4 0xF#4) s = .next t ∧ (vf t).toNat = 1) ∧
     (∃ t, exec (.subnReg 0xF#4 0xF#4) s = .next t ∧ (vf t).toNat = 1) ∧
     (∃ t, exec (.shr 0xF#4 0xF#4) s = .next t ∧ (vf t).toNat = 0) ∧
     (∃ t, exec (.shl 0xF#4 0xF#4) s = .next t ∧ (vf t).toNat = if 128 ≤ f then 2 else 0))

/-- R132: the address, zero-extended, goes to `I` and nothing else changes; no other baseline instruction writes `I`. -/
def Obligations.LdIResult : Prop :=
  (∀ (addr : Addr) (s : State), ∃ t, exec (.ldI addr) s = .next t ∧ t.i.toNat = addr.toNat ∧ s.SameBut [.i] t) ∧
  (∀ (i : Instr) (s t : State), i.isExtension = false → (∀ addr, i ≠ .ldI addr) → exec i s = .next t → t.i = s.i)

/-- R133: exactly one draw, also for `kk = 0`; the result is the drawn byte masked, so no bit outside `kk` is set, and the old `V[x]` does
not enter it. The drawn byte is a free value (log entry 5): nothing is said of it but that a scripted answer is the one drawn; the script
and the count of draws are the model's own data (log entry 10). -/
def Obligations.RndResult : Prop :=
  ∀ (x : Nibble) (kk : Byte) (s : State), ∃ t, ∃ rb : Byte, exec (.rnd x kk) s = .next t ∧
    readV x t = rb &&& kk ∧ readV x t &&& ~~~kk = 0#8 ∧ t.events = s.events ++ [.randomByte rb] ∧
    (∀ b rest, s.sources.random.script = b :: rest → rb = b) ∧
    t.sources.random.drawn = s.sources.random.drawn + 1 ∧ t.sources.collision = s.sources.collision ∧
    t.sources.key = s.sources.key ∧ t.sources.wait = s.sources.wait ∧ t.sources.delay = s.sources.delay ∧
    (∀ z, z ≠ x → readV z t = readV z s) ∧ s.SameBut [.v, .sources, .events] t

/-! ### Display -/

/-- R140: clearing the display is one transaction; no register changes and no frame is committed. -/
def Obligations.ClsResult : Prop :=
  ∀ s : State, ∃ t, exec .cls s = .next t ∧ t.events = s.events ++ [.dispClear] ∧ s.SameBut [.events] t

/-- R141, R142: `n` rows from `I`, each read with the wrap and drawn at the position held before `VF` was cleared, row coordinates not
reduced, every row after a collision too, then one commit; `VF` is the OR of the Display's `n` answers. The answers are free values (log entry 6):
nothing is said of them but that scripted answers are the ones given; the script and the count of answers are the model's own data (log
entry 10). -/
def Obligations.DrwResult : Prop :=
  ∀ (x y n : Nibble) (s : State), ∃ t, ∃ cs : List Bool, exec (.drw x y n) s = .next t ∧ cs.length = n.toNat ∧
    vf t = (if true ∈ cs then 1#8 else 0#8) ∧
    t.events = s.events ++ drawTransactions s (readV x s) (readV y s) cs ++ [.dispUpdate] ∧
    (∀ answers rest, s.sources.collision.script = answers ++ rest → answers.length = n.toNat → cs = answers) ∧
    t.sources.collision.drawn = s.sources.collision.drawn + n.toNat ∧ t.sources.random = s.sources.random ∧
    t.sources.key = s.sources.key ∧ t.sources.wait = s.sources.wait ∧ t.sources.delay = s.sources.delay ∧
    (∀ z, z ≠ 0xF#4 → readV z t = readV z s) ∧ s.SameBut [.v, .sources, .events] t

/-- R56, R57: the reference display XORs: a pixel changes exactly where the row of the sprite lights it, a collision is answered exactly
when a lit pixel went dark, and the same draw again restores every pixel. -/
def Obligations.ReferenceDisplayXors : Prop :=
  ∀ (xp b : Byte) (yp : Nat) (p : Pixels),
    (∀ (row : Fin 32) (px : Nat), px < 64 →
      ((RefDisplay.drawByte xp yp b p).2[row]).getLsbD px =
        ((p[row]).getLsbD px !=
          (decide (row.val = yp % 32) && (List.range 8).any (fun k => b.getLsbD (7 - k) && decide ((xp.toNat + k) % 64 = px))))) ∧
    ((RefDisplay.drawByte xp yp b p).1 = true ↔
      ∃ (row : Fin 32) (px : Nat), px < 64 ∧ (p[row]).getLsbD px = true ∧
        ((RefDisplay.drawByte xp yp b p).2[row]).getLsbD px = false) ∧
    (RefDisplay.drawByte xp yp b (RefDisplay.drawByte xp yp b p).2).2 = p

/-! ### The extension -/

/-- R152, R153: the key skips ask once for the key `V[x]`, unmodified, and skip on the answer, or on its opposite; exactly one answer is
drawn and no other source is touched. The answer is a free value (log entry 7), the script and the count are the model's own data (log
entry 10). -/
def Obligations.KeySkipResults : Prop :=
  ∀ (x : Nibble) (s : State),
    (∃ t, ∃ pressed : Bool, exec (.skp x) s = .next t ∧ t.pc = (if pressed then s.pc + 2#16 else s.pc) ∧
      t.events = s.events ++ [.keyPressed (readV x s) pressed] ∧
      (∀ a rest, s.sources.key.script = a :: rest → pressed = a) ∧
      t.sources = { s.sources with key := s.sources.key.afterOne } ∧ s.SameBut [.pc, .sources, .events] t) ∧
    (∃ t, ∃ pressed : Bool, exec (.sknp x) s = .next t ∧ t.pc = (if pressed then s.pc else s.pc + 2#16) ∧
      t.events = s.events ++ [.keyPressed (readV x s) pressed] ∧
      (∀ a rest, s.sources.key.script = a :: rest → pressed = a) ∧
      t.sources = { s.sources with key := s.sources.key.afterOne } ∧ s.SameBut [.pc, .sources, .events] t)

/-- R154: `V[x]` receives the current value of the delay counter. What the host did to the counter before the read is a free value: when
it did nothing the value is the one last held, when it set it the value is the one it set (log entries 9, 10). Exactly one such act is
drawn and no other source is touched. -/
def Obligations.TimerReadResult : Prop :=
  ∀ (x : Nibble) (s : State), ∃ t, ∃ v : Byte, exec (.ldVxDt x) s = .next t ∧ readV x t = v ∧ t.delay = v ∧
    t.events = s.events ++ [.timerRead .dt v] ∧
    (∀ rest, s.sources.delay.script = none :: rest → v = s.delay) ∧
    (∀ w rest, s.sources.delay.script = some w :: rest → v = w) ∧
    t.sources = { s.sources with delay := s.sources.delay.afterOne } ∧
    (∀ z, z ≠ x → readV z t = readV z s) ∧ s.SameBut [.v, .delay, .sources, .events] t

/-- R155: with no key `PC` goes back by 2 and nothing else of the core changes; with a key `V[x]` is its number and `PC` stays; exactly one
answer is drawn and no other source is touched. The answer is a free value (log entry 7), the script and the count are the model's own
data (log entry 10). -/
def Obligations.KeyWaitResult : Prop :=
  ∀ (x : Nibble) (s : State), ∃ t, ∃ key : Option Nibble, exec (.ldVxK x) s = .next t ∧
    t.events = s.events ++ [.waitKey key] ∧
    (∀ a rest, s.sources.wait.script = a :: rest → key = a) ∧
    t.sources = { s.sources with wait := s.sources.wait.afterOne } ∧
    (key = none → t.pc = s.pc - 2#16 ∧ s.SameBut [.pc, .sources, .events] t) ∧
    (∀ k, key = some k → (readV x t).toNat = k.toNat ∧ (∀ z, z ≠ x → readV z t = readV z s) ∧
      s.SameBut [.v, .sources, .events] t)

/-- R156, R157: the counter named receives `V[x]`; no state of the core changes. -/
def Obligations.TimerWriteResults : Prop :=
  ∀ (x : Nibble) (s : State),
    (∃ t, exec (.ldDtVx x) s = .next t ∧ t.delay = readV x s ∧ t.events = s.events ++ [.timerWrite .dt (readV x s)] ∧
      s.SameBut [.delay, .events] t) ∧
    (∃ t, exec (.ldStVx x) s = .next t ∧ t.sound = readV x s ∧ t.events = s.events ++ [.timerWrite .st (readV x s)] ∧
      s.SameBut [.sound, .events] t)

/-- R158, R159: `I` grows by `V[x]` modulo 65536, `VF` untouched; `I` becomes the address of the glyph of the low digit of `V[x]`, five
bytes a glyph from `FONT_BASE`, which is left open. -/
def Obligations.IndexResults : Prop :=
  ∀ (x : Nibble) (s : State),
    (∃ t, exec (.addI x) s = .next t ∧ t.i.toNat = (s.i.toNat + (readV x s).toNat) % 65536 ∧ s.SameBut [.i] t) ∧
    (∃ t, exec (.ldF x) s = .next t ∧ t.i.toNat = (Config.fontBase.toNat + 5 * ((readV x s).toNat % 16)) % 65536 ∧
      s.SameBut [.i] t)

/-- R160: the hundreds, tens and units of `V[x]` at `I`, `I + 1`, `I + 2`, in that order of transactions, each address wrapped; every other
byte and all of the core unchanged. -/
def Obligations.BcdResult : Prop :=
  ∀ (x : Nibble) (s : State), s.mem.wf = true → ∃ t, exec (.ldB x) s = .next t ∧
    (peek t s.i.toNat).toNat = (readV x s).toNat / 100 ∧ (peek t (s.i.toNat + 1)).toNat = (readV x s).toNat / 10 % 10 ∧
    (peek t (s.i.toNat + 2)).toNat = (readV x s).toNat % 10 ∧
    (∀ a, (∀ k, k < 3 → a % 4096 ≠ (s.i.toNat + k) % 4096) → peek t a = peek s a) ∧
    t.events = s.events ++ [.memWrite s.i.toNat (peek t s.i.toNat), .memWrite (s.i.toNat + 1) (peek t (s.i.toNat + 1)),
      .memWrite (s.i.toNat + 2) (peek t (s.i.toNat + 2))] ∧
    s.SameBut [.mem, .events] t

/-- R161: `V[0]` to `V[x]` at `I` to `I + x`, in increasing order, each address wrapped; every other byte unchanged, `I` unchanged. -/
def Obligations.StoreRegistersResult : Prop :=
  ∀ (x : Nibble) (s : State), s.mem.wf = true → ∃ t, exec (.stRegs x) s = .next t ∧
    (∀ k : Nibble, k.toNat ≤ x.toNat → peek t (s.i.toNat + k.toNat) = readV k s) ∧
    (∀ a, (∀ k, k ≤ x.toNat → a % 4096 ≠ (s.i.toNat + k) % 4096) → peek t a = peek s a) ∧
    t.events = s.events ++
      (List.range (x.toNat + 1)).map (fun k => .memWrite (s.i.toNat + k) (readV (BitVec.ofNat 4 k) s)) ∧
    s.SameBut [.mem, .events] t

/-- R162: `V[0]` to `V[x]` from `I` to `I + x`, in increasing order, each address wrapped; every other register unchanged, `I` unchanged. -/
def Obligations.LoadRegistersResult : Prop :=
  ∀ (x : Nibble) (s : State), ∃ t, exec (.ldRegs x) s = .next t ∧
    (∀ k : Nibble, k.toNat ≤ x.toNat → readV k t = peek s (s.i.toNat + k.toNat)) ∧
    (∀ k : Nibble, x.toNat < k.toNat → readV k t = readV k s) ∧
    t.events = s.events ++ (List.range (x.toNat + 1)).map (fun k => .memRead (s.i.toNat + k) (peek s (s.i.toNat + k))) ∧
    s.SameBut [.v, .events] t

/-- R164: a program may modify itself: the bytes that `Fx55` and `Fx33` store where the next instruction lies are what the very next step
fetches. -/
def Obligations.StoreSeenByNextFetch : Prop :=
  ∀ (x : Nibble) (s : State), s.mem.wf = true →
    (∀ t, exec (.stRegs x) s = .next t → ∀ k, k + 1 ≤ x.toNat → s.pc.toNat % 4096 = (s.i.toNat + k) % 4096 →
      fetchWord t = wordOfBytes (readV (BitVec.ofNat 4 k) s) (readV (BitVec.ofNat 4 (k + 1)) s)) ∧
    (∀ t, exec (.ldB x) s = .next t → s.pc.toNat % 4096 = s.i.toNat % 4096 →
      fetchWord t = wordOfBytes (BitVec.ofNat 8 ((readV x s).toNat / 100)) (BitVec.ofNat 8 ((readV x s).toNat / 10 % 10)))

/-! ### Faults -/

/-- R188, R189: a fault is precise. The state after a step that raises one is the state after the fetch and the advance of `PC`, with the
latch set and one report more, and every later step answers the same fault and emits nothing. -/
def Obligations.FaultIsPreciseAndReportedOnce : Prop :=
  ∀ (s t : State) (c : FaultCause), s.fault = none → step s = .next t → t.fault = some c →
    t = { s with pc := s.pc + 2#16, fault := some c, events := s.events ++ [.fetch s.pc (fetchWord s), .report c] } ∧
    step t = .fault (.latched c) ∧ response t = some (.fault c)

/-- R28, R190: the latch has its codes, is written only by a call with a full stack and a return with an empty one, never by an
instruction again once set, and only the host's `reset` clears it. -/
def Obligations.FaultLatch : Prop :=
  (faultCode none = 0#2 ∧ faultCode (some .stackOverflow) = 1#2 ∧ faultCode (some .stackUnderflow) = 2#2) ∧
  (∀ s t : State, step s = .next t → s.fault = none ∧
    (t.fault = none ∨
      (t.fault = some .stackOverflow ∧ s.sp = 16#8 ∧ ∃ addr, decodeWord s.extEF (fetchWord s) = .ok (.call addr)) ∨
      (t.fault = some .stackUnderflow ∧ s.sp = 0#8 ∧ decodeWord s.extEF (fetchWord s) = .ok .ret))) ∧
  (∀ (s : State) (m : HostMove), (hostAct m s).fault = if m = .reset then none else s.fault)

/-! ### Reset, the host, the invariant -/

/-- R31: the reset values of Table R31, over whatever memory holds. -/
def Obligations.ResetValues : Prop :=
  State.reset = State.powerOn [] ∧
  ∀ mem0 : Memory,
    (∀ z, readV z (State.powerOn mem0) = 0x00#8) ∧ (State.powerOn mem0).i = 0x0000#16 ∧
    (State.powerOn mem0).pc = 0x0200#16 ∧ (State.powerOn mem0).sp = 0#8 ∧
    (∀ (k : Nat) (h : k < 16), (State.powerOn mem0).stack[k] = 0x0000#16) ∧
    faultCode (State.powerOn mem0).fault = 0#2

/-- R210, R211, R213: `reset` in any state puts the core at Table R31 and touches nothing outside it: memory, the timers, the answer
sources and the history stay, the switch too; the next fetch is the word at 0x200. -/
def Obligations.ResetTouchesOnlyTheCore : Prop :=
  ∀ s : State,
    (hostAct .reset s).registerFile = State.reset.registerFile ∧ (hostAct .reset s).mem = s.mem ∧
    (hostAct .reset s).sources = s.sources ∧ (hostAct .reset s).delay = s.delay ∧ (hostAct .reset s).sound = s.sound ∧
    (hostAct .reset s).events = s.events ∧ (hostAct .reset s).extEF = s.extEF ∧
    fetchWord (hostAct .reset s) = wordOfBytes (s.mem.read 0x200) (s.mem.read 0x201)

/-- R32: between two steps the Register File does not change; the host reaches it by `reset` alone. That no host move changes the switch
(log entry 2), the history (log entry 12) or the answer sources (log entry 15) is the model's choice, not the rule's. -/
def Obligations.HostReachesRegistersOnlyByReset : Prop :=
  ∀ (s : State) (m : HostMove),
    (m ≠ .reset → (hostAct m s).registerFile = s.registerFile) ∧ (hostAct m s).extEF = s.extEF ∧
    (hostAct m s).events = s.events ∧ (hostAct m s).sources = s.sources

/-- The loader of R47 and R214: byte `k` of a program of at most 4096 bytes lies at 0x200 + k, every other byte of memory and everything
else is as before, and the canonical form is kept. That a byte past 0xFFF lies at its address modulo 4096 is the model's choice (log
entry 21). -/
def Obligations.ProgramIsLoadedAt200 : Prop :=
  ∀ (bytes : List Byte) (s : State), s.mem.wf = true → bytes.length ≤ 4096 →
    (∀ (k : Nat) (h : k < bytes.length), peek (loadProgram bytes s) (0x200 + k) = bytes[k]) ∧
    (∀ a, (∀ k, k < bytes.length → a % 4096 ≠ (0x200 + k) % 4096) → peek (loadProgram bytes s) a = peek s a) ∧
    (loadProgram bytes s).mem.wf = true ∧ { loadProgram bytes s with mem := s.mem } = s

/-- The invariant holds right after reset, over every canonical memory. -/
def Obligations.InvAtReset : Prop :=
  State.reset.Inv ∧ ∀ mem0 : Memory, mem0.wf = true → (State.powerOn mem0).Inv

/-- THE INVARIANT IS KEPT BY EVERY STEP, from every state that has it: memory stays canonical, `SP` stays at 16 or less, and without the
extension `I` stays at 0xFFF or less; the switch does not change. -/
def Obligations.StepKeepsInv : Prop :=
  ∀ s t : State, s.Inv → step s = .next t → t.Inv ∧ t.extEF = s.extEF

/-- R27: in every state the machine comes to from reset, over any memory and any answers, by its steps and the host's moves, `SP` is at
most 16, and without the extension `I` is at most 0xFFF; no step from such a state is refused. -/
def Obligations.ReachableStatesHaveInv : Prop :=
  ∀ (ext : Bool) (s : State), Reachable ext s →
    s.extEF = ext ∧ s.mem.wf = true ∧ s.sp.toNat ≤ 16 ∧ (ext = false → s.i.toNat ≤ 0xFFF) ∧ ∀ r, step s ≠ .refused r

/-- R218: from a state in which a run has ended well every further step completes and leaves the whole core state and memory unchanged,
however many are taken; from one in which it has ended badly every step answers the fault. -/
def Obligations.EndOfARunIsFinal : Prop :=
  (∀ (s : State) (k : Nat), s.EndedWell →
    ∃ t, Sys2Proof.core.run k s = .next t ∧ t.registerFile = s.registerFile ∧ t.mem = s.mem ∧ t.EndedWell) ∧
  (∀ (s : State) (k : Nat), s.EndedBadly → ∃ c, s.fault = some c ∧ Sys2Proof.core.run (k + 1) s = .fault (.latched c))

/-- The step lemma behind R110: from every state, a step that gives a next state keeps the stack entry `k`, unless it executes a call with
`SP = k`; a return keeps it too, and so does every host move but `reset` (R26, R32). -/
def Obligations.StepKeepsStackEntry : Prop :=
  (∀ (s t : State) (k : Nat) (h : k < 16), step s = .next t →
    ¬(s.sp.toNat = k ∧ ∃ addr, decodeWord s.extEF (fetchWord s) = .ok (.call addr)) → t.stack[k] = s.stack[k]) ∧
  (∀ (s : State) (m : HostMove) (k : Nat) (h : k < 16), m ≠ .reset → (hostAct m s).stack[k] = s.stack[k])
end

