-- ==== Sys2Proof/Laws/Decode.lean ====
section
/-! SUPPORT. Words and fields as numbers: assembling a word and reading its fields are division and remainder by powers of two, so that
every statement about an encoding is one of arithmetic; then the fields of an assembled word. -/

namespace Sys2Proof

/-! ### As numbers -/

/-- Concatenation is place value. -/
theorem toNat_append_add {n m : Nat} (a : BitVec n) (b : BitVec m) : (a ++ b).toNat = a.toNat * 2 ^ m + b.toNat := by
  rw [BitVec.toNat_append, Nat.shiftLeft_eq, Nat.mul_comm, Nat.two_pow_add_eq_or_of_lt b.isLt]

theorem wordAddr_toNat (n0 : Nibble) (addr : Addr) : (wordAddr n0 addr).toNat = n0.toNat * 4096 + addr.toNat :=
  toNat_append_add n0 addr

theorem wordXKk_toNat (n0 x : Nibble) (kk : Byte) :
    (wordXKk n0 x kk).toNat = n0.toNat * 4096 + x.toNat * 256 + kk.toNat := by
  refine (toNat_append_add n0 (x ++ kk : BitVec 12)).trans ?_
  rw [toNat_append_add x kk, Nat.add_assoc]
  rfl

theorem wordXYN_toNat (n0 x y n : Nibble) :
    (wordXYN n0 x y n).toNat = n0.toNat * 4096 + x.toNat * 256 + y.toNat * 16 + n.toNat := by
  refine (toNat_append_add n0 (x ++ (y ++ n : BitVec 8) : BitVec 12)).trans ?_
  rw [toNat_append_add x (y ++ n : BitVec 8), toNat_append_add y n, Nat.add_assoc, Nat.add_assoc]
  rfl

theorem wordOfBytes_toNat (hi lo : Byte) : (wordOfBytes hi lo).toNat = hi.toNat * 256 + lo.toNat := toNat_append_add hi lo

theorem nib0_toNat (op : Word) : (nib0 op).toNat = op.toNat / 4096 := by
  have := op.isLt
  simp only [nib0, BitVec.extractLsb'_toNat, Nat.shiftRight_eq_div_pow]; omega

theorem fieldX_toNat (op : Word) : (fieldX op).toNat = op.toNat / 256 % 16 := by
  simp only [fieldX, BitVec.extractLsb'_toNat, Nat.shiftRight_eq_div_pow]

theorem fieldY_toNat (op : Word) : (fieldY op).toNat = op.toNat / 16 % 16 := by
  simp only [fieldY, BitVec.extractLsb'_toNat, Nat.shiftRight_eq_div_pow]

theorem fieldN_toNat (op : Word) : (fieldN op).toNat = op.toNat % 16 := by
  simp only [fieldN, BitVec.extractLsb'_toNat, Nat.shiftRight_eq_div_pow]; omega

theorem fieldKk_toNat (op : Word) : (fieldKk op).toNat = op.toNat % 256 := by
  simp only [fieldKk, BitVec.extractLsb'_toNat, Nat.shiftRight_eq_div_pow]; omega

theorem fieldAddr_toNat (op : Word) : (fieldAddr op).toNat = op.toNat % 4096 := by
  simp only [fieldAddr, BitVec.extractLsb'_toNat, Nat.shiftRight_eq_div_pow]; omega

theorem highByte_toNat (op : Word) : (highByte op).toNat = op.toNat / 256 := by
  have := op.isLt
  simp only [highByte, BitVec.extractLsb'_toNat, Nat.shiftRight_eq_div_pow]; omega

theorem lowByte_toNat (op : Word) : (lowByte op).toNat = op.toNat % 256 := fieldKk_toNat op

/-! ### The fields of an assembled word -/

@[simp] theorem nib0_wordAddr (n0 : Nibble) (addr : Addr) : nib0 (wordAddr n0 addr) = n0 := by
  have := addr.isLt
  apply BitVec.eq_of_toNat_eq; rw [nib0_toNat, wordAddr_toNat]; omega

@[simp] theorem fieldAddr_wordAddr (n0 : Nibble) (addr : Addr) : fieldAddr (wordAddr n0 addr) = addr := by
  have := addr.isLt
  apply BitVec.eq_of_toNat_eq; rw [fieldAddr_toNat, wordAddr_toNat]; omega

@[simp] theorem nib0_wordXKk (n0 x : Nibble) (kk : Byte) : nib0 (wordXKk n0 x kk) = n0 := by
  have := x.isLt; have := kk.isLt
  apply BitVec.eq_of_toNat_eq; rw [nib0_toNat, wordXKk_toNat]; omega

@[simp] theorem fieldX_wordXKk (n0 x : Nibble) (kk : Byte) : fieldX (wordXKk n0 x kk) = x := by
  have := x.isLt; have := kk.isLt
  apply BitVec.eq_of_toNat_eq; rw [fieldX_toNat, wordXKk_toNat]; omega

@[simp] theorem fieldKk_wordXKk (n0 x : Nibble) (kk : Byte) : fieldKk (wordXKk n0 x kk) = kk := by
  have := kk.isLt
  apply BitVec.eq_of_toNat_eq; rw [fieldKk_toNat, wordXKk_toNat]; omega

@[simp] theorem nib0_wordXYN (n0 x y n : Nibble) : nib0 (wordXYN n0 x y n) = n0 := by
  have := x.isLt; have := y.isLt; have := n.isLt
  apply BitVec.eq_of_toNat_eq; rw [nib0_toNat, wordXYN_toNat]; omega

@[simp] theorem fieldX_wordXYN (n0 x y n : Nibble) : fieldX (wordXYN n0 x y n) = x := by
  have := x.isLt; have := y.isLt; have := n.isLt
  apply BitVec.eq_of_toNat_eq; rw [fieldX_toNat, wordXYN_toNat]; omega

@[simp] theorem fieldY_wordXYN (n0 x y n : Nibble) : fieldY (wordXYN n0 x y n) = y := by
  have := y.isLt; have := n.isLt
  apply BitVec.eq_of_toNat_eq; rw [fieldY_toNat, wordXYN_toNat]; omega

@[simp] theorem fieldN_wordXYN (n0 x y n : Nibble) : fieldN (wordXYN n0 x y n) = n := by
  have := n.isLt
  apply BitVec.eq_of_toNat_eq; rw [fieldN_toNat, wordXYN_toNat]; omega

/-- The two bytes of a word, high byte first, make the word again (R71). -/
@[simp] theorem wordOfBytes_bytes (op : Word) : wordOfBytes (highByte op) (lowByte op) = op := by
  apply BitVec.eq_of_toNat_eq; rw [wordOfBytes_toNat, highByte_toNat, lowByte_toNat]; omega

@[simp] theorem highByte_wordOfBytes (hi lo : Byte) : highByte (wordOfBytes hi lo) = hi := by
  have := lo.isLt
  apply BitVec.eq_of_toNat_eq; rw [highByte_toNat, wordOfBytes_toNat]; omega

@[simp] theorem lowByte_wordOfBytes (hi lo : Byte) : lowByte (wordOfBytes hi lo) = lo := by
  have := lo.isLt
  apply BitVec.eq_of_toNat_eq; rw [lowByte_toNat, wordOfBytes_toNat]; omega

/-- A word is its first nibble and its address field (R72, R73). -/
theorem wordAddr_fields (op : Word) : wordAddr (nib0 op) (fieldAddr op) = op := by
  apply BitVec.eq_of_toNat_eq; rw [wordAddr_toNat, nib0_toNat, fieldAddr_toNat]; omega

/-- A word is its first nibble, `x` and `kk` (R72, R73). -/
theorem wordXKk_fields (op : Word) : wordXKk (nib0 op) (fieldX op) (fieldKk op) = op := by
  apply BitVec.eq_of_toNat_eq; rw [wordXKk_toNat, nib0_toNat, fieldX_toNat, fieldKk_toNat]; omega

/-- A word is its four nibbles (R72). -/
theorem wordXYN_fields (op : Word) : wordXYN (nib0 op) (fieldX op) (fieldY op) (fieldN op) = op := by
  apply BitVec.eq_of_toNat_eq; rw [wordXYN_toNat, nib0_toNat, fieldX_toNat, fieldY_toNat, fieldN_toNat]; omega

/-- Masking a word nibble by nibble. -/
theorem and_wordXYN (a x y n b c d e : Nibble) :
    wordXYN a x y n &&& wordXYN b c d e = wordXYN (a &&& b) (x &&& c) (y &&& d) (n &&& e) := by
  simp only [wordXYN]
  rw [← BitVec.and_append, ← BitVec.and_append, ← BitVec.and_append]

/-- Masking a word field by field. -/
theorem and_wordXKk (a x b c : Nibble) (k l : Byte) :
    wordXKk a x k &&& wordXKk b c l = wordXKk (a &&& b) (x &&& c) (k &&& l) := by
  simp only [wordXKk]
  rw [← BitVec.and_append, ← BitVec.and_append]

theorem and_nibble_F (a : Nibble) : a &&& 0xF#4 = a := BitVec.and_allOnes

/-- Masking with `0xF000` keeps the first nibble. -/
theorem and_F000 (op : Word) : op &&& 0xF000#16 = wordXYN (nib0 op) 0#4 0#4 0#4 := by
  conv_lhs => rw [← wordXYN_fields op, show 0xF000#16 = wordXYN 0xF#4 0#4 0#4 0#4 from rfl]
  simp only [and_wordXYN, and_nibble_F, BitVec.and_zero]

/-- Masking with `0xF00F` keeps the first and the last nibble. -/
theorem and_F00F (op : Word) : op &&& 0xF00F#16 = wordXYN (nib0 op) 0#4 0#4 (fieldN op) := by
  conv_lhs => rw [← wordXYN_fields op, show 0xF00F#16 = wordXYN 0xF#4 0#4 0#4 0xF#4 from rfl]
  simp only [and_wordXYN, and_nibble_F, BitVec.and_zero]

/-- Masking with `0xF0FF` keeps the first nibble and the low byte. -/
theorem and_F0FF (op : Word) : op &&& 0xF0FF#16 = wordXKk (nib0 op) 0#4 (fieldKk op) := by
  conv_lhs => rw [← wordXKk_fields op, show 0xF0FF#16 = wordXKk 0xF#4 0#4 0xFF#8 from rfl]
  rw [and_wordXKk, and_nibble_F, BitVec.and_zero, show fieldKk op &&& 0xFF#8 = fieldKk op from BitVec.and_allOnes]

/-- Masking with `0xFFFF` keeps the word. -/
theorem and_FFFF (op : Word) : op &&& 0xFFFF#16 = op := BitVec.and_allOnes

/-- The sixteen values of a nibble, for going through the opcode map. -/
theorem nibble_cases (n : Nibble) :
    n = 0x0#4 ∨ n = 0x1#4 ∨ n = 0x2#4 ∨ n = 0x3#4 ∨ n = 0x4#4 ∨ n = 0x5#4 ∨ n = 0x6#4 ∨ n = 0x7#4 ∨
    n = 0x8#4 ∨ n = 0x9#4 ∨ n = 0xA#4 ∨ n = 0xB#4 ∨ n = 0xC#4 ∨ n = 0xD#4 ∨ n = 0xE#4 ∨ n = 0xF#4 := by
  revert n; decide

/-- Decoding two bytes is decoding their word (R71). -/
theorem decode_two (ext : Bool) (hi lo : Byte) (rest : List Byte) :
    decode ext (hi :: lo :: rest) =
      match decodeWord ext (wordOfBytes hi lo) with
      | .ok i => .ok (i, rest)
      | .error e => .error e := rfl

/-- A word decodes to an instruction exactly when it selects that instruction's row. -/
theorem decodeWord_ok {ext : Bool} {op : Word} {i : Instr} : decodeWord ext op = .ok i ↔ selectRow ext op = some i := by
  unfold decodeWord; split <;> simp_all

/-- A word that selects no row is rejected as unimplemented, and only such a word (R77). -/
theorem decodeWord_error {ext : Bool} {op : Word} {e : DecodeError} :
    decodeWord ext op = .error e ↔ selectRow ext op = none ∧ e = .unimplemented op := by
  unfold decodeWord
  split
  · simp_all
  · simp_all [eq_comm]

end Sys2Proof
end

