-- ==== Sys2Proof/Laws/State.lean ====
section
/-! SUPPORT. One lemma per field of State per update, so that no later proof unfolds a record update; the two reads `readV` and `peek`
count as fields. -/

namespace Sys2Proof.Machine

/-! `V[x] <- b` -/

@[simp] theorem writeV_v (x : Nibble) (b : Byte) (s : State) : (writeV x b s).v = s.v.set x.toNat b x.isLt := rfl
@[simp] theorem writeV_i (x : Nibble) (b : Byte) (s : State) : (writeV x b s).i = s.i := rfl
@[simp] theorem writeV_pc (x : Nibble) (b : Byte) (s : State) : (writeV x b s).pc = s.pc := rfl
@[simp] theorem writeV_sp (x : Nibble) (b : Byte) (s : State) : (writeV x b s).sp = s.sp := rfl
@[simp] theorem writeV_stack (x : Nibble) (b : Byte) (s : State) : (writeV x b s).stack = s.stack := rfl
@[simp] theorem writeV_fault (x : Nibble) (b : Byte) (s : State) : (writeV x b s).fault = s.fault := rfl
@[simp] theorem writeV_extEF (x : Nibble) (b : Byte) (s : State) : (writeV x b s).extEF = s.extEF := rfl
@[simp] theorem writeV_mem (x : Nibble) (b : Byte) (s : State) : (writeV x b s).mem = s.mem := rfl
@[simp] theorem writeV_sources (x : Nibble) (b : Byte) (s : State) : (writeV x b s).sources = s.sources := rfl
@[simp] theorem writeV_delay (x : Nibble) (b : Byte) (s : State) : (writeV x b s).delay = s.delay := rfl
@[simp] theorem writeV_sound (x : Nibble) (b : Byte) (s : State) : (writeV x b s).sound = s.sound := rfl
@[simp] theorem writeV_events (x : Nibble) (b : Byte) (s : State) : (writeV x b s).events = s.events := rfl
@[simp] theorem writeV_peek (k : Nat) (x : Nibble) (b : Byte) (s : State) : peek (writeV x b s) k = peek s k := rfl

/-! `I <- w` -/

@[simp] theorem setI_v (w : Word) (s : State) : (setI w s).v = s.v := rfl
@[simp] theorem setI_i (w : Word) (s : State) : (setI w s).i = w := rfl
@[simp] theorem setI_pc (w : Word) (s : State) : (setI w s).pc = s.pc := rfl
@[simp] theorem setI_sp (w : Word) (s : State) : (setI w s).sp = s.sp := rfl
@[simp] theorem setI_stack (w : Word) (s : State) : (setI w s).stack = s.stack := rfl
@[simp] theorem setI_fault (w : Word) (s : State) : (setI w s).fault = s.fault := rfl
@[simp] theorem setI_extEF (w : Word) (s : State) : (setI w s).extEF = s.extEF := rfl
@[simp] theorem setI_mem (w : Word) (s : State) : (setI w s).mem = s.mem := rfl
@[simp] theorem setI_sources (w : Word) (s : State) : (setI w s).sources = s.sources := rfl
@[simp] theorem setI_delay (w : Word) (s : State) : (setI w s).delay = s.delay := rfl
@[simp] theorem setI_sound (w : Word) (s : State) : (setI w s).sound = s.sound := rfl
@[simp] theorem setI_events (w : Word) (s : State) : (setI w s).events = s.events := rfl
@[simp] theorem setI_readV (z : Nibble) (w : Word) (s : State) : readV z (setI w s) = readV z s := rfl
@[simp] theorem setI_peek (k : Nat) (w : Word) (s : State) : peek (setI w s) k = peek s k := rfl

/-! `PC <- w` -/

@[simp] theorem setPc_v (w : Word) (s : State) : (setPc w s).v = s.v := rfl
@[simp] theorem setPc_i (w : Word) (s : State) : (setPc w s).i = s.i := rfl
@[simp] theorem setPc_pc (w : Word) (s : State) : (setPc w s).pc = w := rfl
@[simp] theorem setPc_sp (w : Word) (s : State) : (setPc w s).sp = s.sp := rfl
@[simp] theorem setPc_stack (w : Word) (s : State) : (setPc w s).stack = s.stack := rfl
@[simp] theorem setPc_fault (w : Word) (s : State) : (setPc w s).fault = s.fault := rfl
@[simp] theorem setPc_extEF (w : Word) (s : State) : (setPc w s).extEF = s.extEF := rfl
@[simp] theorem setPc_mem (w : Word) (s : State) : (setPc w s).mem = s.mem := rfl
@[simp] theorem setPc_sources (w : Word) (s : State) : (setPc w s).sources = s.sources := rfl
@[simp] theorem setPc_delay (w : Word) (s : State) : (setPc w s).delay = s.delay := rfl
@[simp] theorem setPc_sound (w : Word) (s : State) : (setPc w s).sound = s.sound := rfl
@[simp] theorem setPc_events (w : Word) (s : State) : (setPc w s).events = s.events := rfl
@[simp] theorem setPc_readV (z : Nibble) (w : Word) (s : State) : readV z (setPc w s) = readV z s := rfl
@[simp] theorem setPc_peek (k : Nat) (w : Word) (s : State) : peek (setPc w s) k = peek s k := rfl

/-! `PC <- PC + 2` -/

@[simp] theorem bumpPc_v (s : State) : (bumpPc s).v = s.v := rfl
@[simp] theorem bumpPc_i (s : State) : (bumpPc s).i = s.i := rfl
@[simp] theorem bumpPc_pc (s : State) : (bumpPc s).pc = s.pc + 2#16 := rfl
@[simp] theorem bumpPc_sp (s : State) : (bumpPc s).sp = s.sp := rfl
@[simp] theorem bumpPc_stack (s : State) : (bumpPc s).stack = s.stack := rfl
@[simp] theorem bumpPc_fault (s : State) : (bumpPc s).fault = s.fault := rfl
@[simp] theorem bumpPc_extEF (s : State) : (bumpPc s).extEF = s.extEF := rfl
@[simp] theorem bumpPc_mem (s : State) : (bumpPc s).mem = s.mem := rfl
@[simp] theorem bumpPc_sources (s : State) : (bumpPc s).sources = s.sources := rfl
@[simp] theorem bumpPc_delay (s : State) : (bumpPc s).delay = s.delay := rfl
@[simp] theorem bumpPc_sound (s : State) : (bumpPc s).sound = s.sound := rfl
@[simp] theorem bumpPc_events (s : State) : (bumpPc s).events = s.events := rfl
@[simp] theorem bumpPc_readV (z : Nibble) (s : State) : readV z (bumpPc s) = readV z s := rfl
@[simp] theorem bumpPc_peek (k : Nat) (s : State) : peek (bumpPc s) k = peek s k := rfl

/-! one event -/

@[simp] theorem emit_v (e : Event) (s : State) : (emit e s).v = s.v := rfl
@[simp] theorem emit_i (e : Event) (s : State) : (emit e s).i = s.i := rfl
@[simp] theorem emit_pc (e : Event) (s : State) : (emit e s).pc = s.pc := rfl
@[simp] theorem emit_sp (e : Event) (s : State) : (emit e s).sp = s.sp := rfl
@[simp] theorem emit_stack (e : Event) (s : State) : (emit e s).stack = s.stack := rfl
@[simp] theorem emit_fault (e : Event) (s : State) : (emit e s).fault = s.fault := rfl
@[simp] theorem emit_extEF (e : Event) (s : State) : (emit e s).extEF = s.extEF := rfl
@[simp] theorem emit_mem (e : Event) (s : State) : (emit e s).mem = s.mem := rfl
@[simp] theorem emit_sources (e : Event) (s : State) : (emit e s).sources = s.sources := rfl
@[simp] theorem emit_delay (e : Event) (s : State) : (emit e s).delay = s.delay := rfl
@[simp] theorem emit_sound (e : Event) (s : State) : (emit e s).sound = s.sound := rfl
@[simp] theorem emit_events (e : Event) (s : State) : (emit e s).events = s.events ++ [e] := rfl
@[simp] theorem emit_readV (z : Nibble) (e : Event) (s : State) : readV z (emit e s) = readV z s := rfl
@[simp] theorem emit_peek (k : Nat) (e : Event) (s : State) : peek (emit e s) k = peek s k := rfl

/-! one byte of memory -/

@[simp] theorem poke_v (a : Nat) (b : Byte) (s : State) : (poke a b s).v = s.v := rfl
@[simp] theorem poke_i (a : Nat) (b : Byte) (s : State) : (poke a b s).i = s.i := rfl
@[simp] theorem poke_pc (a : Nat) (b : Byte) (s : State) : (poke a b s).pc = s.pc := rfl
@[simp] theorem poke_sp (a : Nat) (b : Byte) (s : State) : (poke a b s).sp = s.sp := rfl
@[simp] theorem poke_stack (a : Nat) (b : Byte) (s : State) : (poke a b s).stack = s.stack := rfl
@[simp] theorem poke_fault (a : Nat) (b : Byte) (s : State) : (poke a b s).fault = s.fault := rfl
@[simp] theorem poke_extEF (a : Nat) (b : Byte) (s : State) : (poke a b s).extEF = s.extEF := rfl
@[simp] theorem poke_mem (a : Nat) (b : Byte) (s : State) : (poke a b s).mem = s.mem.write (a % Config.memSize) b := rfl
@[simp] theorem poke_sources (a : Nat) (b : Byte) (s : State) : (poke a b s).sources = s.sources := rfl
@[simp] theorem poke_delay (a : Nat) (b : Byte) (s : State) : (poke a b s).delay = s.delay := rfl
@[simp] theorem poke_sound (a : Nat) (b : Byte) (s : State) : (poke a b s).sound = s.sound := rfl
@[simp] theorem poke_events (a : Nat) (b : Byte) (s : State) : (poke a b s).events = s.events := rfl
@[simp] theorem poke_readV (z : Nibble) (a : Nat) (b : Byte) (s : State) : readV z (poke a b s) = readV z s := rfl

/-! `MemWrite` -/

@[simp] theorem memWrite_v (a : Nat) (b : Byte) (s : State) : (memWrite a b s).v = s.v := rfl
@[simp] theorem memWrite_i (a : Nat) (b : Byte) (s : State) : (memWrite a b s).i = s.i := rfl
@[simp] theorem memWrite_pc (a : Nat) (b : Byte) (s : State) : (memWrite a b s).pc = s.pc := rfl
@[simp] theorem memWrite_sp (a : Nat) (b : Byte) (s : State) : (memWrite a b s).sp = s.sp := rfl
@[simp] theorem memWrite_stack (a : Nat) (b : Byte) (s : State) : (memWrite a b s).stack = s.stack := rfl
@[simp] theorem memWrite_fault (a : Nat) (b : Byte) (s : State) : (memWrite a b s).fault = s.fault := rfl
@[simp] theorem memWrite_extEF (a : Nat) (b : Byte) (s : State) : (memWrite a b s).extEF = s.extEF := rfl
@[simp] theorem memWrite_mem (a : Nat) (b : Byte) (s : State) : (memWrite a b s).mem = s.mem.write (a % Config.memSize) b := rfl
@[simp] theorem memWrite_sources (a : Nat) (b : Byte) (s : State) : (memWrite a b s).sources = s.sources := rfl
@[simp] theorem memWrite_delay (a : Nat) (b : Byte) (s : State) : (memWrite a b s).delay = s.delay := rfl
@[simp] theorem memWrite_sound (a : Nat) (b : Byte) (s : State) : (memWrite a b s).sound = s.sound := rfl
@[simp] theorem memWrite_events (a : Nat) (b : Byte) (s : State) : (memWrite a b s).events = s.events ++ [.memWrite a b] := rfl
@[simp] theorem memWrite_readV (z : Nibble) (a : Nat) (b : Byte) (s : State) : readV z (memWrite a b s) = readV z s := rfl

/-! `MemRead(a, 1)` -/

@[simp] theorem memRead_v (a : Nat) (s : State) : ((memRead a s).2).v = s.v := rfl
@[simp] theorem memRead_i (a : Nat) (s : State) : ((memRead a s).2).i = s.i := rfl
@[simp] theorem memRead_pc (a : Nat) (s : State) : ((memRead a s).2).pc = s.pc := rfl
@[simp] theorem memRead_sp (a : Nat) (s : State) : ((memRead a s).2).sp = s.sp := rfl
@[simp] theorem memRead_stack (a : Nat) (s : State) : ((memRead a s).2).stack = s.stack := rfl
@[simp] theorem memRead_fault (a : Nat) (s : State) : ((memRead a s).2).fault = s.fault := rfl
@[simp] theorem memRead_extEF (a : Nat) (s : State) : ((memRead a s).2).extEF = s.extEF := rfl
@[simp] theorem memRead_mem (a : Nat) (s : State) : ((memRead a s).2).mem = s.mem := rfl
@[simp] theorem memRead_sources (a : Nat) (s : State) : ((memRead a s).2).sources = s.sources := rfl
@[simp] theorem memRead_delay (a : Nat) (s : State) : ((memRead a s).2).delay = s.delay := rfl
@[simp] theorem memRead_sound (a : Nat) (s : State) : ((memRead a s).2).sound = s.sound := rfl
@[simp] theorem memRead_events (a : Nat) (s : State) : ((memRead a s).2).events = s.events ++ [.memRead a (peek s a)] := rfl
@[simp] theorem memRead_readV (z : Nibble) (a : Nat) (s : State) : readV z ((memRead a s).2) = readV z s := rfl
@[simp] theorem memRead_peek (k : Nat) (a : Nat) (s : State) : peek ((memRead a s).2) k = peek s k := rfl

/-! `raise` -/

@[simp] theorem raiseFault_v (c : FaultCause) (s : State) : (raiseFault c s).v = s.v := rfl
@[simp] theorem raiseFault_i (c : FaultCause) (s : State) : (raiseFault c s).i = s.i := rfl
@[simp] theorem raiseFault_pc (c : FaultCause) (s : State) : (raiseFault c s).pc = s.pc := rfl
@[simp] theorem raiseFault_sp (c : FaultCause) (s : State) : (raiseFault c s).sp = s.sp := rfl
@[simp] theorem raiseFault_stack (c : FaultCause) (s : State) : (raiseFault c s).stack = s.stack := rfl
@[simp] theorem raiseFault_fault (c : FaultCause) (s : State) : (raiseFault c s).fault = some c := rfl
@[simp] theorem raiseFault_extEF (c : FaultCause) (s : State) : (raiseFault c s).extEF = s.extEF := rfl
@[simp] theorem raiseFault_mem (c : FaultCause) (s : State) : (raiseFault c s).mem = s.mem := rfl
@[simp] theorem raiseFault_sources (c : FaultCause) (s : State) : (raiseFault c s).sources = s.sources := rfl
@[simp] theorem raiseFault_delay (c : FaultCause) (s : State) : (raiseFault c s).delay = s.delay := rfl
@[simp] theorem raiseFault_sound (c : FaultCause) (s : State) : (raiseFault c s).sound = s.sound := rfl
@[simp] theorem raiseFault_events (c : FaultCause) (s : State) : (raiseFault c s).events = s.events ++ [.report c] := rfl
@[simp] theorem raiseFault_readV (z : Nibble) (c : FaultCause) (s : State) : readV z (raiseFault c s) = readV z s := rfl
@[simp] theorem raiseFault_peek (k : Nat) (c : FaultCause) (s : State) : peek (raiseFault c s) k = peek s k := rfl

/-! `notice` -/

@[simp] theorem unimplemented_v (op a : Word) (s : State) : (unimplemented op a s).v = s.v := rfl
@[simp] theorem unimplemented_i (op a : Word) (s : State) : (unimplemented op a s).i = s.i := rfl
@[simp] theorem unimplemented_pc (op a : Word) (s : State) : (unimplemented op a s).pc = s.pc := rfl
@[simp] theorem unimplemented_sp (op a : Word) (s : State) : (unimplemented op a s).sp = s.sp := rfl
@[simp] theorem unimplemented_stack (op a : Word) (s : State) : (unimplemented op a s).stack = s.stack := rfl
@[simp] theorem unimplemented_fault (op a : Word) (s : State) : (unimplemented op a s).fault = s.fault := rfl
@[simp] theorem unimplemented_extEF (op a : Word) (s : State) : (unimplemented op a s).extEF = s.extEF := rfl
@[simp] theorem unimplemented_mem (op a : Word) (s : State) : (unimplemented op a s).mem = s.mem := rfl
@[simp] theorem unimplemented_sources (op a : Word) (s : State) : (unimplemented op a s).sources = s.sources := rfl
@[simp] theorem unimplemented_delay (op a : Word) (s : State) : (unimplemented op a s).delay = s.delay := rfl
@[simp] theorem unimplemented_sound (op a : Word) (s : State) : (unimplemented op a s).sound = s.sound := rfl
@[simp] theorem unimplemented_events (op a : Word) (s : State) : (unimplemented op a s).events = s.events ++ [.notice op a] := rfl
@[simp] theorem unimplemented_readV (z : Nibble) (op a : Word) (s : State) : readV z (unimplemented op a s) = readV z s := rfl
@[simp] theorem unimplemented_peek (k : Nat) (op a : Word) (s : State) : peek (unimplemented op a s) k = peek s k := rfl

/-! push -/

@[simp] theorem pushWord_v (w : Word) (s : State) (h : s.sp.toNat < 16) : (pushWord w s h).v = s.v := rfl
@[simp] theorem pushWord_i (w : Word) (s : State) (h : s.sp.toNat < 16) : (pushWord w s h).i = s.i := rfl
@[simp] theorem pushWord_pc (w : Word) (s : State) (h : s.sp.toNat < 16) : (pushWord w s h).pc = s.pc := rfl
@[simp] theorem pushWord_sp (w : Word) (s : State) (h : s.sp.toNat < 16) : (pushWord w s h).sp = s.sp + 1#8 := rfl
@[simp] theorem pushWord_stack (w : Word) (s : State) (h : s.sp.toNat < 16) : (pushWord w s h).stack = s.stack.set s.sp.toNat w h := rfl
@[simp] theorem pushWord_fault (w : Word) (s : State) (h : s.sp.toNat < 16) : (pushWord w s h).fault = s.fault := rfl
@[simp] theorem pushWord_extEF (w : Word) (s : State) (h : s.sp.toNat < 16) : (pushWord w s h).extEF = s.extEF := rfl
@[simp] theorem pushWord_mem (w : Word) (s : State) (h : s.sp.toNat < 16) : (pushWord w s h).mem = s.mem := rfl
@[simp] theorem pushWord_sources (w : Word) (s : State) (h : s.sp.toNat < 16) : (pushWord w s h).sources = s.sources := rfl
@[simp] theorem pushWord_delay (w : Word) (s : State) (h : s.sp.toNat < 16) : (pushWord w s h).delay = s.delay := rfl
@[simp] theorem pushWord_sound (w : Word) (s : State) (h : s.sp.toNat < 16) : (pushWord w s h).sound = s.sound := rfl
@[simp] theorem pushWord_events (w : Word) (s : State) (h : s.sp.toNat < 16) : (pushWord w s h).events = s.events := rfl
@[simp] theorem pushWord_readV (z : Nibble) (w : Word) (s : State) (h : s.sp.toNat < 16) : readV z (pushWord w s h) = readV z s := rfl
@[simp] theorem pushWord_peek (k : Nat) (w : Word) (s : State) (h : s.sp.toNat < 16) : peek (pushWord w s h) k = peek s k := rfl

/-! pop -/

@[simp] theorem popWord_v (s : State) (h : 0 < s.sp.toNat ∧ s.sp.toNat ≤ 16) : ((popWord s h).2).v = s.v := rfl
@[simp] theorem popWord_i (s : State) (h : 0 < s.sp.toNat ∧ s.sp.toNat ≤ 16) : ((popWord s h).2).i = s.i := rfl
@[simp] theorem popWord_pc (s : State) (h : 0 < s.sp.toNat ∧ s.sp.toNat ≤ 16) : ((popWord s h).2).pc = s.pc := rfl
@[simp] theorem popWord_sp (s : State) (h : 0 < s.sp.toNat ∧ s.sp.toNat ≤ 16) : ((popWord s h).2).sp = s.sp - 1#8 := rfl
@[simp] theorem popWord_stack (s : State) (h : 0 < s.sp.toNat ∧ s.sp.toNat ≤ 16) : ((popWord s h).2).stack = s.stack := rfl
@[simp] theorem popWord_fault (s : State) (h : 0 < s.sp.toNat ∧ s.sp.toNat ≤ 16) : ((popWord s h).2).fault = s.fault := rfl
@[simp] theorem popWord_extEF (s : State) (h : 0 < s.sp.toNat ∧ s.sp.toNat ≤ 16) : ((popWord s h).2).extEF = s.extEF := rfl
@[simp] theorem popWord_mem (s : State) (h : 0 < s.sp.toNat ∧ s.sp.toNat ≤ 16) : ((popWord s h).2).mem = s.mem := rfl
@[simp] theorem popWord_sources (s : State) (h : 0 < s.sp.toNat ∧ s.sp.toNat ≤ 16) : ((popWord s h).2).sources = s.sources := rfl
@[simp] theorem popWord_delay (s : State) (h : 0 < s.sp.toNat ∧ s.sp.toNat ≤ 16) : ((popWord s h).2).delay = s.delay := rfl
@[simp] theorem popWord_sound (s : State) (h : 0 < s.sp.toNat ∧ s.sp.toNat ≤ 16) : ((popWord s h).2).sound = s.sound := rfl
@[simp] theorem popWord_events (s : State) (h : 0 < s.sp.toNat ∧ s.sp.toNat ≤ 16) : ((popWord s h).2).events = s.events := rfl
@[simp] theorem popWord_readV (z : Nibble) (s : State) (h : 0 < s.sp.toNat ∧ s.sp.toNat ≤ 16) : readV z ((popWord s h).2) = readV z s := rfl
@[simp] theorem popWord_peek (k : Nat) (s : State) (h : 0 < s.sp.toNat ∧ s.sp.toNat ≤ 16) : peek ((popWord s h).2) k = peek s k := rfl

/-! `DispClear` -/

@[simp] theorem dispClear_v (s : State) : (dispClear s).v = s.v := rfl
@[simp] theorem dispClear_i (s : State) : (dispClear s).i = s.i := rfl
@[simp] theorem dispClear_pc (s : State) : (dispClear s).pc = s.pc := rfl
@[simp] theorem dispClear_sp (s : State) : (dispClear s).sp = s.sp := rfl
@[simp] theorem dispClear_stack (s : State) : (dispClear s).stack = s.stack := rfl
@[simp] theorem dispClear_fault (s : State) : (dispClear s).fault = s.fault := rfl
@[simp] theorem dispClear_extEF (s : State) : (dispClear s).extEF = s.extEF := rfl
@[simp] theorem dispClear_mem (s : State) : (dispClear s).mem = s.mem := rfl
@[simp] theorem dispClear_sources (s : State) : (dispClear s).sources = s.sources := rfl
@[simp] theorem dispClear_delay (s : State) : (dispClear s).delay = s.delay := rfl
@[simp] theorem dispClear_sound (s : State) : (dispClear s).sound = s.sound := rfl
@[simp] theorem dispClear_events (s : State) : (dispClear s).events = s.events ++ [.dispClear] := rfl
@[simp] theorem dispClear_readV (z : Nibble) (s : State) : readV z (dispClear s) = readV z s := rfl
@[simp] theorem dispClear_peek (k : Nat) (s : State) : peek (dispClear s) k = peek s k := rfl

/-! `DispUpdate` -/

@[simp] theorem dispUpdate_v (s : State) : (dispUpdate s).v = s.v := rfl
@[simp] theorem dispUpdate_i (s : State) : (dispUpdate s).i = s.i := rfl
@[simp] theorem dispUpdate_pc (s : State) : (dispUpdate s).pc = s.pc := rfl
@[simp] theorem dispUpdate_sp (s : State) : (dispUpdate s).sp = s.sp := rfl
@[simp] theorem dispUpdate_stack (s : State) : (dispUpdate s).stack = s.stack := rfl
@[simp] theorem dispUpdate_fault (s : State) : (dispUpdate s).fault = s.fault := rfl
@[simp] theorem dispUpdate_extEF (s : State) : (dispUpdate s).extEF = s.extEF := rfl
@[simp] theorem dispUpdate_mem (s : State) : (dispUpdate s).mem = s.mem := rfl
@[simp] theorem dispUpdate_sources (s : State) : (dispUpdate s).sources = s.sources := rfl
@[simp] theorem dispUpdate_delay (s : State) : (dispUpdate s).delay = s.delay := rfl
@[simp] theorem dispUpdate_sound (s : State) : (dispUpdate s).sound = s.sound := rfl
@[simp] theorem dispUpdate_events (s : State) : (dispUpdate s).events = s.events ++ [.dispUpdate] := rfl
@[simp] theorem dispUpdate_readV (z : Nibble) (s : State) : readV z (dispUpdate s) = readV z s := rfl
@[simp] theorem dispUpdate_peek (k : Nat) (s : State) : peek (dispUpdate s) k = peek s k := rfl

/-! `RandomByte` -/

@[simp] theorem randomByte_v (s : State) : ((randomByte s).2).v = s.v := rfl
@[simp] theorem randomByte_i (s : State) : ((randomByte s).2).i = s.i := rfl
@[simp] theorem randomByte_pc (s : State) : ((randomByte s).2).pc = s.pc := rfl
@[simp] theorem randomByte_sp (s : State) : ((randomByte s).2).sp = s.sp := rfl
@[simp] theorem randomByte_stack (s : State) : ((randomByte s).2).stack = s.stack := rfl
@[simp] theorem randomByte_fault (s : State) : ((randomByte s).2).fault = s.fault := rfl
@[simp] theorem randomByte_extEF (s : State) : ((randomByte s).2).extEF = s.extEF := rfl
@[simp] theorem randomByte_mem (s : State) : ((randomByte s).2).mem = s.mem := rfl
@[simp] theorem randomByte_sources (s : State) : ((randomByte s).2).sources = { s.sources with random := (s.sources.random.draw Config.randomByte).2 } := rfl
@[simp] theorem randomByte_delay (s : State) : ((randomByte s).2).delay = s.delay := rfl
@[simp] theorem randomByte_sound (s : State) : ((randomByte s).2).sound = s.sound := rfl
@[simp] theorem randomByte_events (s : State) : ((randomByte s).2).events = s.events ++ [.randomByte (randomByte s).1] := rfl
@[simp] theorem randomByte_readV (z : Nibble) (s : State) : readV z ((randomByte s).2) = readV z s := rfl
@[simp] theorem randomByte_peek (k : Nat) (s : State) : peek ((randomByte s).2) k = peek s k := rfl

/-! `DispDrawByte` -/

@[simp] theorem dispDrawByte_v (xp : Byte) (yp : Nat) (b : Byte) (s : State) : ((dispDrawByte xp yp b s).2).v = s.v := rfl
@[simp] theorem dispDrawByte_i (xp : Byte) (yp : Nat) (b : Byte) (s : State) : ((dispDrawByte xp yp b s).2).i = s.i := rfl
@[simp] theorem dispDrawByte_pc (xp : Byte) (yp : Nat) (b : Byte) (s : State) : ((dispDrawByte xp yp b s).2).pc = s.pc := rfl
@[simp] theorem dispDrawByte_sp (xp : Byte) (yp : Nat) (b : Byte) (s : State) : ((dispDrawByte xp yp b s).2).sp = s.sp := rfl
@[simp] theorem dispDrawByte_stack (xp : Byte) (yp : Nat) (b : Byte) (s : State) : ((dispDrawByte xp yp b s).2).stack = s.stack := rfl
@[simp] theorem dispDrawByte_fault (xp : Byte) (yp : Nat) (b : Byte) (s : State) : ((dispDrawByte xp yp b s).2).fault = s.fault := rfl
@[simp] theorem dispDrawByte_extEF (xp : Byte) (yp : Nat) (b : Byte) (s : State) : ((dispDrawByte xp yp b s).2).extEF = s.extEF := rfl
@[simp] theorem dispDrawByte_mem (xp : Byte) (yp : Nat) (b : Byte) (s : State) : ((dispDrawByte xp yp b s).2).mem = s.mem := rfl
@[simp] theorem dispDrawByte_sources (xp : Byte) (yp : Nat) (b : Byte) (s : State) : ((dispDrawByte xp yp b s).2).sources = { s.sources with collision := (s.sources.collision.draw Config.collision).2 } := rfl
@[simp] theorem dispDrawByte_delay (xp : Byte) (yp : Nat) (b : Byte) (s : State) : ((dispDrawByte xp yp b s).2).delay = s.delay := rfl
@[simp] theorem dispDrawByte_sound (xp : Byte) (yp : Nat) (b : Byte) (s : State) : ((dispDrawByte xp yp b s).2).sound = s.sound := rfl
@[simp] theorem dispDrawByte_events (xp : Byte) (yp : Nat) (b : Byte) (s : State) : ((dispDrawByte xp yp b s).2).events = s.events ++ [.dispDrawByte xp yp b (dispDrawByte xp yp b s).1] := rfl
@[simp] theorem dispDrawByte_readV (z : Nibble) (xp : Byte) (yp : Nat) (b : Byte) (s : State) : readV z ((dispDrawByte xp yp b s).2) = readV z s := rfl
@[simp] theorem dispDrawByte_peek (k : Nat) (xp : Byte) (yp : Nat) (b : Byte) (s : State) : peek ((dispDrawByte xp yp b s).2) k = peek s k := rfl

/-! `KeyPressed` -/

@[simp] theorem keyPressed_v (key : Byte) (s : State) : ((keyPressed key s).2).v = s.v := rfl
@[simp] theorem keyPressed_i (key : Byte) (s : State) : ((keyPressed key s).2).i = s.i := rfl
@[simp] theorem keyPressed_pc (key : Byte) (s : State) : ((keyPressed key s).2).pc = s.pc := rfl
@[simp] theorem keyPressed_sp (key : Byte) (s : State) : ((keyPressed key s).2).sp = s.sp := rfl
@[simp] theorem keyPressed_stack (key : Byte) (s : State) : ((keyPressed key s).2).stack = s.stack := rfl
@[simp] theorem keyPressed_fault (key : Byte) (s : State) : ((keyPressed key s).2).fault = s.fault := rfl
@[simp] theorem keyPressed_extEF (key : Byte) (s : State) : ((keyPressed key s).2).extEF = s.extEF := rfl
@[simp] theorem keyPressed_mem (key : Byte) (s : State) : ((keyPressed key s).2).mem = s.mem := rfl
@[simp] theorem keyPressed_sources (key : Byte) (s : State) : ((keyPressed key s).2).sources = { s.sources with key := (s.sources.key.draw Config.keyPressed).2 } := rfl
@[simp] theorem keyPressed_delay (key : Byte) (s : State) : ((keyPressed key s).2).delay = s.delay := rfl
@[simp] theorem keyPressed_sound (key : Byte) (s : State) : ((keyPressed key s).2).sound = s.sound := rfl
@[simp] theorem keyPressed_events (key : Byte) (s : State) : ((keyPressed key s).2).events = s.events ++ [.keyPressed key (keyPressed key s).1] := rfl
@[simp] theorem keyPressed_readV (z : Nibble) (key : Byte) (s : State) : readV z ((keyPressed key s).2) = readV z s := rfl
@[simp] theorem keyPressed_peek (k : Nat) (key : Byte) (s : State) : peek ((keyPressed key s).2) k = peek s k := rfl

/-! `WaitKey` -/

@[simp] theorem waitKey_v (s : State) : ((waitKey s).2).v = s.v := rfl
@[simp] theorem waitKey_i (s : State) : ((waitKey s).2).i = s.i := rfl
@[simp] theorem waitKey_pc (s : State) : ((waitKey s).2).pc = s.pc := rfl
@[simp] theorem waitKey_sp (s : State) : ((waitKey s).2).sp = s.sp := rfl
@[simp] theorem waitKey_stack (s : State) : ((waitKey s).2).stack = s.stack := rfl
@[simp] theorem waitKey_fault (s : State) : ((waitKey s).2).fault = s.fault := rfl
@[simp] theorem waitKey_extEF (s : State) : ((waitKey s).2).extEF = s.extEF := rfl
@[simp] theorem waitKey_mem (s : State) : ((waitKey s).2).mem = s.mem := rfl
@[simp] theorem waitKey_sources (s : State) : ((waitKey s).2).sources = { s.sources with wait := (s.sources.wait.draw Config.waitKey).2 } := rfl
@[simp] theorem waitKey_delay (s : State) : ((waitKey s).2).delay = s.delay := rfl
@[simp] theorem waitKey_sound (s : State) : ((waitKey s).2).sound = s.sound := rfl
@[simp] theorem waitKey_events (s : State) : ((waitKey s).2).events = s.events ++ [.waitKey (waitKey s).1] := rfl
@[simp] theorem waitKey_readV (z : Nibble) (s : State) : readV z ((waitKey s).2) = readV z s := rfl
@[simp] theorem waitKey_peek (k : Nat) (s : State) : peek ((waitKey s).2) k = peek s k := rfl

/-! `TimerRead(DT)` -/

@[simp] theorem timerReadDelay_v (s : State) : ((timerReadDelay s).2).v = s.v := rfl
@[simp] theorem timerReadDelay_i (s : State) : ((timerReadDelay s).2).i = s.i := rfl
@[simp] theorem timerReadDelay_pc (s : State) : ((timerReadDelay s).2).pc = s.pc := rfl
@[simp] theorem timerReadDelay_sp (s : State) : ((timerReadDelay s).2).sp = s.sp := rfl
@[simp] theorem timerReadDelay_stack (s : State) : ((timerReadDelay s).2).stack = s.stack := rfl
@[simp] theorem timerReadDelay_fault (s : State) : ((timerReadDelay s).2).fault = s.fault := rfl
@[simp] theorem timerReadDelay_extEF (s : State) : ((timerReadDelay s).2).extEF = s.extEF := rfl
@[simp] theorem timerReadDelay_mem (s : State) : ((timerReadDelay s).2).mem = s.mem := rfl
@[simp] theorem timerReadDelay_sources (s : State) : ((timerReadDelay s).2).sources = { s.sources with delay := (s.sources.delay.draw Config.hostDelay).2 } := rfl
@[simp] theorem timerReadDelay_delay (s : State) : ((timerReadDelay s).2).delay = (timerReadDelay s).1 := rfl
@[simp] theorem timerReadDelay_sound (s : State) : ((timerReadDelay s).2).sound = s.sound := rfl
@[simp] theorem timerReadDelay_events (s : State) : ((timerReadDelay s).2).events = s.events ++ [.timerRead .dt (timerReadDelay s).1] := rfl
@[simp] theorem timerReadDelay_readV (z : Nibble) (s : State) : readV z ((timerReadDelay s).2) = readV z s := rfl
@[simp] theorem timerReadDelay_peek (k : Nat) (s : State) : peek ((timerReadDelay s).2) k = peek s k := rfl

/-! `TimerWrite(DT, b)` -/

@[simp] theorem timerWrite_dt_v (b : Byte) (s : State) : (timerWrite .dt b s).v = s.v := rfl
@[simp] theorem timerWrite_dt_i (b : Byte) (s : State) : (timerWrite .dt b s).i = s.i := rfl
@[simp] theorem timerWrite_dt_pc (b : Byte) (s : State) : (timerWrite .dt b s).pc = s.pc := rfl
@[simp] theorem timerWrite_dt_sp (b : Byte) (s : State) : (timerWrite .dt b s).sp = s.sp := rfl
@[simp] theorem timerWrite_dt_stack (b : Byte) (s : State) : (timerWrite .dt b s).stack = s.stack := rfl
@[simp] theorem timerWrite_dt_fault (b : Byte) (s : State) : (timerWrite .dt b s).fault = s.fault := rfl
@[simp] theorem timerWrite_dt_extEF (b : Byte) (s : State) : (timerWrite .dt b s).extEF = s.extEF := rfl
@[simp] theorem timerWrite_dt_mem (b : Byte) (s : State) : (timerWrite .dt b s).mem = s.mem := rfl
@[simp] theorem timerWrite_dt_sources (b : Byte) (s : State) : (timerWrite .dt b s).sources = s.sources := rfl
@[simp] theorem timerWrite_dt_delay (b : Byte) (s : State) : (timerWrite .dt b s).delay = b := rfl
@[simp] theorem timerWrite_dt_sound (b : Byte) (s : State) : (timerWrite .dt b s).sound = s.sound := rfl
@[simp] theorem timerWrite_dt_events (b : Byte) (s : State) : (timerWrite .dt b s).events = s.events ++ [.timerWrite .dt b] := rfl
@[simp] theorem timerWrite_dt_readV (z : Nibble) (b : Byte) (s : State) : readV z (timerWrite .dt b s) = readV z s := rfl
@[simp] theorem timerWrite_dt_peek (k : Nat) (b : Byte) (s : State) : peek (timerWrite .dt b s) k = peek s k := rfl

/-! `TimerWrite(ST, b)` -/

@[simp] theorem timerWrite_st_v (b : Byte) (s : State) : (timerWrite .st b s).v = s.v := rfl
@[simp] theorem timerWrite_st_i (b : Byte) (s : State) : (timerWrite .st b s).i = s.i := rfl
@[simp] theorem timerWrite_st_pc (b : Byte) (s : State) : (timerWrite .st b s).pc = s.pc := rfl
@[simp] theorem timerWrite_st_sp (b : Byte) (s : State) : (timerWrite .st b s).sp = s.sp := rfl
@[simp] theorem timerWrite_st_stack (b : Byte) (s : State) : (timerWrite .st b s).stack = s.stack := rfl
@[simp] theorem timerWrite_st_fault (b : Byte) (s : State) : (timerWrite .st b s).fault = s.fault := rfl
@[simp] theorem timerWrite_st_extEF (b : Byte) (s : State) : (timerWrite .st b s).extEF = s.extEF := rfl
@[simp] theorem timerWrite_st_mem (b : Byte) (s : State) : (timerWrite .st b s).mem = s.mem := rfl
@[simp] theorem timerWrite_st_sources (b : Byte) (s : State) : (timerWrite .st b s).sources = s.sources := rfl
@[simp] theorem timerWrite_st_delay (b : Byte) (s : State) : (timerWrite .st b s).delay = s.delay := rfl
@[simp] theorem timerWrite_st_sound (b : Byte) (s : State) : (timerWrite .st b s).sound = b := rfl
@[simp] theorem timerWrite_st_events (b : Byte) (s : State) : (timerWrite .st b s).events = s.events ++ [.timerWrite .st b] := rfl
@[simp] theorem timerWrite_st_readV (z : Nibble) (b : Byte) (s : State) : readV z (timerWrite .st b s) = readV z s := rfl
@[simp] theorem timerWrite_st_peek (k : Nat) (b : Byte) (s : State) : peek (timerWrite .st b s) k = peek s k := rfl

/-! fetch and advance -/

@[simp] theorem fetchAdvance_v (s : State) : (fetchAdvance s).v = s.v := rfl
@[simp] theorem fetchAdvance_i (s : State) : (fetchAdvance s).i = s.i := rfl
@[simp] theorem fetchAdvance_pc (s : State) : (fetchAdvance s).pc = s.pc + 2#16 := rfl
@[simp] theorem fetchAdvance_sp (s : State) : (fetchAdvance s).sp = s.sp := rfl
@[simp] theorem fetchAdvance_stack (s : State) : (fetchAdvance s).stack = s.stack := rfl
@[simp] theorem fetchAdvance_fault (s : State) : (fetchAdvance s).fault = s.fault := rfl
@[simp] theorem fetchAdvance_extEF (s : State) : (fetchAdvance s).extEF = s.extEF := rfl
@[simp] theorem fetchAdvance_mem (s : State) : (fetchAdvance s).mem = s.mem := rfl
@[simp] theorem fetchAdvance_sources (s : State) : (fetchAdvance s).sources = s.sources := rfl
@[simp] theorem fetchAdvance_delay (s : State) : (fetchAdvance s).delay = s.delay := rfl
@[simp] theorem fetchAdvance_sound (s : State) : (fetchAdvance s).sound = s.sound := rfl
@[simp] theorem fetchAdvance_events (s : State) : (fetchAdvance s).events = s.events ++ [.fetch s.pc (fetchWord s)] := rfl
@[simp] theorem fetchAdvance_readV (z : Nibble) (s : State) : readV z (fetchAdvance s) = readV z s := rfl
@[simp] theorem fetchAdvance_peek (k : Nat) (s : State) : peek (fetchAdvance s) k = peek s k := rfl

/-! `reset` -/

@[simp] theorem resetCore_v (s : State) : (resetCore s).v = RegisterFile.reset.v := rfl
@[simp] theorem resetCore_i (s : State) : (resetCore s).i = RegisterFile.reset.i := rfl
@[simp] theorem resetCore_pc (s : State) : (resetCore s).pc = RegisterFile.reset.pc := rfl
@[simp] theorem resetCore_sp (s : State) : (resetCore s).sp = RegisterFile.reset.sp := rfl
@[simp] theorem resetCore_stack (s : State) : (resetCore s).stack = RegisterFile.reset.stack := rfl
@[simp] theorem resetCore_fault (s : State) : (resetCore s).fault = RegisterFile.reset.fault := rfl
@[simp] theorem resetCore_extEF (s : State) : (resetCore s).extEF = s.extEF := rfl
@[simp] theorem resetCore_mem (s : State) : (resetCore s).mem = s.mem := rfl
@[simp] theorem resetCore_sources (s : State) : (resetCore s).sources = s.sources := rfl
@[simp] theorem resetCore_delay (s : State) : (resetCore s).delay = s.delay := rfl
@[simp] theorem resetCore_sound (s : State) : (resetCore s).sound = s.sound := rfl
@[simp] theorem resetCore_events (s : State) : (resetCore s).events = s.events := rfl
@[simp] theorem resetCore_peek (k : Nat) (s : State) : peek (resetCore s) k = peek s k := rfl

end Sys2Proof.Machine
end

