-- ==== Sys2Proof/Laws/Frame.lean ====
section
/-! SUPPORT. Frames as a relation: reflexive, transitive, monotone in the parts named; a frame that leaves one part out says that part
is as before. And the one case distinction on a completed step that every claim about `step` starts from. -/

namespace Sys2Proof.Machine

theorem sameBut_refl (l : List Part) (s : State) : s.SameBut l s := by simp [State.SameBut]

theorem sameBut_trans {l : List Part} {s t u : State} (h : s.SameBut l t) (k : t.SameBut l u) : s.SameBut l u := by
  obtain ⟨h1, h2, h3, h4, h5, h6, h7, h8, h9, h10, h11, h12⟩ := h
  obtain ⟨k1, k2, k3, k4, k5, k6, k7, k8, k9, k10, k11, k12⟩ := k
  have both {p : Part} {A B C : Prop} (abc : A → B → C) (ha : p ∈ l ∨ A) (hb : p ∈ l ∨ B) : p ∈ l ∨ C :=
    ha.elim .inl fun a => hb.imp_right (abc a)
  exact ⟨both (fun a b z => (b z).trans (a z)) h1 k1, both (fun a b => b.trans a) h2 k2, both (fun a b => b.trans a) h3 k3,
    both (fun a b => b.trans a) h4 k4, both (fun a b => b.trans a) h5 k5, both (fun a b => b.trans a) h6 k6,
    both (fun a b => ⟨b.1.trans a.1, fun c => (b.2 c).trans (a.2 c)⟩) h7 k7, both (fun a b => b.trans a) h8 k8,
    both (fun a b => b.trans a) h9 k9, both (fun a b => b.trans a) h10 k10, both (fun a b => b.trans a) h11 k11, k12.trans h12⟩

theorem sameBut_mono {l l' : List Part} (h : ∀ p ∈ l, p ∈ l') {s t : State} (k : s.SameBut l t) : s.SameBut l' t := by
  obtain ⟨k1, k2, k3, k4, k5, k6, k7, k8, k9, k10, k11, k12⟩ := k
  exact ⟨k1.imp_left (h _), k2.imp_left (h _), k3.imp_left (h _), k4.imp_left (h _), k5.imp_left (h _), k6.imp_left (h _),
    k7.imp_left (h _), k8.imp_left (h _), k9.imp_left (h _), k10.imp_left (h _), k11.imp_left (h _), k12⟩

/-- What a completed step did: the core was not faulted, and it executed the decoded instruction after the fetch or gave a notice. -/
theorem step_cases {s t : State} (h : step s = .next t) :
    s.fault = none ∧
      ((∃ i, decodeWord s.extEF (fetchWord s) = .ok i ∧ exec i (fetchAdvance s) = .next t) ∨
       (∃ e, decodeWord s.extEF (fetchWord s) = .error e ∧ t = unimplemented (fetchWord s) s.pc (fetchAdvance s))) := by
  simp only [step, cycle, runFetched] at h
  rcases hf : s.fault with _ | c
  · rw [hf] at h
    refine ⟨rfl, ?_⟩
    rcases hd : decodeWord s.extEF (fetchWord s) with e | i
    · rw [hd] at h; cases h; exact .inr ⟨e, rfl, rfl⟩
    · rw [hd] at h; exact .inl ⟨i, rfl, h⟩
  · rw [hf] at h; cases h

end Sys2Proof.Machine
end

