-- ==== Sys2Proof/Laws/Memory.lean ====
section
/-! SUPPORT. What the memory operations do: every one keeps the canonical form, a read sees the last write, and canonical memories that
read alike are equal. -/

namespace Sys2Proof.Machine

theorem Memory.wfFrom_cons {lo a : Nat} {b : Byte} {m : Memory} :
    Memory.wfFrom lo ((a, b) :: m) = true ↔
      lo ≤ a ∧ a < Config.memSize ∧ b ≠ Config.unlistedByte ∧ Memory.wfFrom (a + 1) m = true := by
  simp [Memory.wfFrom, and_assoc]

theorem Memory.wfFrom_mono {lo lo' : Nat} (h : lo' ≤ lo) {m : Memory} (hm : Memory.wfFrom lo m = true) :
    Memory.wfFrom lo' m = true := by
  cases m with
  | nil => rfl
  | cons c m =>
    obtain ⟨h1, h2, h3, h4⟩ := Memory.wfFrom_cons.1 hm
    exact Memory.wfFrom_cons.2 ⟨by omega, h2, h3, h4⟩

/-- Nothing is listed below the lower bound. -/
theorem Memory.read_below {m : Memory} : ∀ {lo a : Nat}, Memory.wfFrom lo m = true → a < lo →
    m.read a = Config.unlistedByte := by
  induction m with
  | nil => intros; rfl
  | cons c m ih =>
    intro lo a hm ha
    obtain ⟨h1, -, -, h4⟩ := Memory.wfFrom_cons.1 hm
    have hne : c.1 ≠ a := by omega
    simp only [Memory.read, hne, if_false]
    exact ih h4 (by omega)

theorem Memory.cons_wfFrom {lo a : Nat} {b : Byte} {m : Memory} (h1 : lo ≤ a) (h2 : a < Config.memSize)
    (hm : Memory.wfFrom (a + 1) m = true) : Memory.wfFrom lo (Memory.cons a b m) = true := by
  unfold Memory.cons
  split
  · exact Memory.wfFrom_mono (by omega) hm
  · exact Memory.wfFrom_cons.2 ⟨h1, h2, ‹_›, hm⟩

/-- A write keeps the canonical form. -/
theorem Memory.write_wfFrom {m : Memory} {a : Nat} {b : Byte} (ha : a < Config.memSize) :
    ∀ {lo : Nat}, Memory.wfFrom lo m = true → lo ≤ a → Memory.wfFrom lo (m.write a b) = true := by
  induction m with
  | nil => intro lo _ h; exact Memory.cons_wfFrom h ha rfl
  | cons c m ih =>
    intro lo hm h
    obtain ⟨h1, h2, h3, h4⟩ := Memory.wfFrom_cons.1 hm
    simp only [Memory.write]
    split
    · exact Memory.cons_wfFrom h ha (Memory.wfFrom_cons.2 ⟨by omega, h2, h3, h4⟩)
    · split
      · next he => subst he; exact Memory.cons_wfFrom h ha h4
      · exact Memory.wfFrom_cons.2 ⟨h1, h2, h3, ih h4 (by omega)⟩

/-- A write keeps the canonical form of a whole memory. -/
theorem Memory.write_wf {m : Memory} {a : Nat} {b : Byte} (hm : m.wf = true) (ha : a < Config.memSize) :
    (m.write a b).wf = true := Memory.write_wfFrom ha hm (Nat.zero_le a)

/-- The empty memory of State.reset is canonical. -/
theorem Memory.nil_wf : Memory.wf [] = true := rfl

theorem Memory.read_cons {lo a c : Nat} {b : Byte} {m : Memory} (hm : Memory.wfFrom (lo + 1) m = true) (ha : a = lo) :
    (Memory.cons a b m).read c = if c = a then b else m.read c := by
  subst ha
  unfold Memory.cons
  by_cases hb : b = Config.unlistedByte
  · rw [if_pos hb]
    split
    · next hc => rw [hc, Memory.read_below hm (by omega), hb]
    · rfl
  · rw [if_neg hb]
    by_cases hc : c = a
    · simp [Memory.read, hc]
    · simp [Memory.read, hc, Ne.symm hc]

/-- A write leaves every other byte alone, in a memory of any form. -/
theorem Memory.read_write_of_ne {m : Memory} {a c : Nat} (h : c ≠ a) (b : Byte) : (m.write a b).read c = m.read c := by
  have front (m : Memory) : (Memory.cons a b m).read c = m.read c := by
    unfold Memory.cons; split
    · rfl
    · simp [Memory.read, h.symm]
  induction m with
  | nil => exact front []
  | cons d m ih =>
    simp only [Memory.write]
    split
    · exact front (d :: m)
    · split
      · next he => rw [front]; simp [Memory.read, ← he, h.symm]
      · simp only [Memory.read, ih]

/-- A read after a write: the byte written at its address, the old byte everywhere else. -/
theorem Memory.read_write {m : Memory} {a c : Nat} {b : Byte} : ∀ {lo : Nat}, Memory.wfFrom lo m = true →
    (m.write a b).read c = if c = a then b else m.read c := by
  induction m with
  | nil => intro lo _; exact Memory.read_cons (lo := a) rfl rfl
  | cons d m ih =>
    intro lo hm
    obtain ⟨h1, h2, h3, h4⟩ := Memory.wfFrom_cons.1 hm
    simp only [Memory.write]
    split
    · exact Memory.read_cons (lo := a) (Memory.wfFrom_cons.2 ⟨by omega, h2, h3, h4⟩) rfl
    · split
      · next he =>
        subst he
        rw [Memory.read_cons (lo := d.1) h4 rfl]
        by_cases hc : c = d.1
        · rw [if_pos hc, if_pos hc]
        · rw [if_neg hc, if_neg hc]; simp [Memory.read, Ne.symm hc]
      · by_cases hd : d.1 = c
        · have : c ≠ a := by omega
          simp [Memory.read, hd, this]
        · simp only [Memory.read, hd, if_false]; exact ih h4

/-- Canonical memories that read alike are the same list. -/
theorem Memory.eq_of_read_eq {m : Memory} : ∀ {lo : Nat} {m' : Memory}, Memory.wfFrom lo m = true →
    Memory.wfFrom lo m' = true → (∀ a, m.read a = m'.read a) → m = m' := by
  induction m with
  | nil =>
    intro lo m' _ hm' h
    cases m' with
    | nil => rfl
    | cons c m' =>
      obtain ⟨-, -, h3, -⟩ := Memory.wfFrom_cons.1 hm'
      exact absurd (by simpa [Memory.read] using h c.1) (Ne.symm h3)
  | cons c m ih =>
    intro lo m' hm hm' h
    obtain ⟨h1, h2, h3, h4⟩ := Memory.wfFrom_cons.1 hm
    cases m' with
    | nil => exact absurd (by simpa [Memory.read] using h c.1) h3
    | cons d m' =>
      obtain ⟨k1, k2, k3, k4⟩ := Memory.wfFrom_cons.1 hm'
      have hcd : c.1 = d.1 := by
        rcases Nat.lt_trichotomy c.1 d.1 with hlt | heq | hgt
        · have e := h c.1
          rw [Memory.read_below (Memory.wfFrom_cons.2 ⟨Nat.le_refl _, k2, k3, k4⟩) hlt] at e
          exact absurd (by simpa [Memory.read] using e) h3
        · exact heq
        · have e := h d.1
          rw [Memory.read_below (m := c :: m) (Memory.wfFrom_cons.2 ⟨Nat.le_refl _, h2, h3, h4⟩) hgt] at e
          exact absurd (by simpa [Memory.read] using e.symm) k3
      have hb : c.2 = d.2 := by simpa [Memory.read, hcd] using h c.1
      have htail : m = m' := by
        refine ih h4 (hcd ▸ k4) fun a => ?_
        by_cases ha : c.1 = a
        · rw [Memory.read_below h4 (by omega), Memory.read_below k4 (by omega)]
        · have e := h a
          simpa [Memory.read, ha, ← hcd] using e
      rw [htail, Prod.ext hcd hb]

end Sys2Proof.Machine
end

