-- ==== Sys2Proof/Laws/Ops.lean ====
section
/-! SUPPORT. One lemma per shared operation, saying once everything it can do. -/

namespace Sys2Proof.Machine

/-! ### Registers -/

/-- Reading a register after writing one: no two registers alias (R20). -/
theorem readV_writeV (x z : Nibble) (b : Byte) (s : State) :
    readV z (writeV x b s) = if z = x then b else readV z s := by
  unfold readV writeV
  rw [Vector.getElem_set]
  by_cases h : z = x
  · simp [h]
  · have : x.toNat ≠ z.toNat := fun e => h (BitVec.eq_of_toNat_eq e.symm)
    simp [h, this]

@[simp] theorem readV_writeV_self (x : Nibble) (b : Byte) (s : State) : readV x (writeV x b s) = b := by
  rw [readV_writeV, if_pos rfl]

theorem readV_writeV_of_ne {x z : Nibble} (h : z ≠ x) (b : Byte) (s : State) : readV z (writeV x b s) = readV z s := by
  rw [readV_writeV, if_neg h]

/-- Two states agree on all of `V` when they agree register by register. -/
theorem v_ext {s t : State} (h : ∀ z, readV z s = readV z t) : s.v = t.v := by
  apply Vector.ext
  intro k hk
  have hz : (BitVec.ofNat 4 k).toNat = k := Nat.mod_eq_of_lt hk
  have e := h (BitVec.ofNat 4 k)
  simpa only [readV, hz] using e

theorem vf_eq (s : State) : vf s = readV 0xF#4 s := rfl

theorem writeVF_eq (b : Byte) (s : State) : writeVF b s = writeV 0xF#4 b s := rfl

/-! ### Memory -/

/-- Reading a byte after writing one, both addresses wrapped (R42). -/
theorem peek_poke {s : State} (h : s.mem.wf = true) (a c : Nat) (b : Byte) :
    peek (poke a b s) c = if c % Config.memSize = a % Config.memSize then b else peek s c :=
  Memory.read_write (lo := 0) h

/-- A write leaves every byte at another address alone, whatever the form of memory (R42). -/
theorem peek_memWrite_of_ne {a c : Nat} (h : c % Config.memSize ≠ a % Config.memSize) (b : Byte) (s : State) :
    peek (memWrite a b s) c = peek s c := Memory.read_write_of_ne h b

/-- A write keeps memory canonical. -/
theorem poke_wf {s : State} (h : s.mem.wf = true) (a : Nat) (b : Byte) : (poke a b s).mem.wf = true :=
  Memory.write_wf h (Nat.mod_lt a (by decide))

theorem memWrite_wf {s : State} (h : s.mem.wf = true) (a : Nat) (b : Byte) : (memWrite a b s).mem.wf = true := poke_wf h a b

theorem peek_memWrite {s : State} (h : s.mem.wf = true) (a c : Nat) (b : Byte) :
    peek (memWrite a b s) c = if c % Config.memSize = a % Config.memSize then b else peek s c := peek_poke h a c b

/-- The byte depends on the address only modulo 4096 (R42). -/
theorem peek_mod (s : State) (a : Nat) : peek s (a % Config.memSize) = peek s a := by
  simp [peek]

@[simp] theorem memRead_fst (a : Nat) (s : State) : (memRead a s).1 = peek s a := rfl

/-! ### Open answers -/

/-- An answer is the next of the stream or the free value of its number, and one more has been given. -/
theorem draw_cases {α : Type} (free : Nat → α) (src : Source α) :
    (src.script = [] ∧ src.draw free = (free src.drawn, ⟨[], src.drawn + 1⟩)) ∨
      ∃ a rest, src.script = a :: rest ∧ src.draw free = (a, ⟨rest, src.drawn + 1⟩) := by
  rcases h : src.script with _ | ⟨a, rest⟩
  · exact .inl ⟨rfl, by simp [Source.draw, h]⟩
  · exact .inr ⟨a, rest, rfl, by simp [Source.draw, h]⟩

theorem draw_scripted {α : Type} (free : Nat → α) {src : Source α} {a : α} {rest : List α} (h : src.script = a :: rest) :
    src.draw free = (a, ⟨rest, src.drawn + 1⟩) := by
  simp [Source.draw, h]

/-- What is left of a source after an answer does not depend on the free values. -/
theorem draw_snd {α : Type} (free : Nat → α) (src : Source α) : (src.draw free).2 = ⟨src.script.tail, src.drawn + 1⟩ := by
  rcases draw_cases free src with ⟨h, e⟩ | ⟨a, rest, h, e⟩ <;> simp [e, h]

@[simp] theorem draw_drawn {α : Type} (free : Nat → α) (src : Source α) : (src.draw free).2.drawn = src.drawn + 1 := by
  unfold Source.draw; split <;> rfl

@[simp] theorem draw_script {α : Type} (free : Nat → α) (src : Source α) : (src.draw free).2.script = src.script.tail := by
  unfold Source.draw; split <;> simp [*]

/-! ### Operand forms -/

/-- A skip changes `PC` alone, by 2 or not at all (R109). -/
theorem skipIf_eq (c : Bool) (s : State) : skipIf c s = setPc (if c then s.pc + 2#16 else s.pc) s := by
  cases c <;> rfl

/-- A two-register operation changes `V[x]` alone (R123 to R126). -/
theorem readV_combineV (f : Byte → Byte → Byte) (x y z : Nibble) (s : State) :
    readV z (combineV f x y s) = if z = x then f (readV x s) (readV y s) else readV z s := readV_writeV _ _ _ _

/-- Result first, flag last: with `x = F` the flag survives (R134). -/
theorem readV_writeResultThenFlag (x z : Nibble) (r f : Byte) (s : State) :
    readV z (writeResultThenFlag x r f s) = if z = 0xF#4 then f else if z = x then r else readV z s := by
  simp only [writeResultThenFlag, writeVF_eq, readV_writeV]

/-- Flag first, shift last: with `x = F` the flag itself is shifted (R134). -/
theorem readV_writeFlagThenShift (x z : Nibble) (f : Byte) (g : Byte → Byte) (s : State) :
    readV z (writeFlagThenShift x f g s) =
      if z = x then g (if x = 0xF#4 then f else readV x s) else if z = 0xF#4 then f else readV z s := by
  simp only [writeFlagThenShift, writeVF_eq, readV_writeV]

theorem forUpTo_zero (body : Nat → State → State) (s : State) : forUpTo 0 body s = s := rfl

/-- One more step of a rising walk. -/
theorem forUpTo_succ (n : Nat) (body : Nat → State → State) (s : State) :
    forUpTo (n + 1) body s = body n (forUpTo n body s) := by
  simp [forUpTo, List.range_succ, List.foldl_append]

/-- What holds at the start and is kept by every step holds at the end. -/
theorem forUpTo_induct {P : Nat → State → Prop} {body : Nat → State → State} {s : State} (h0 : P 0 s)
    (hs : ∀ k t, P k t → P (k + 1) (body k t)) : ∀ n, P n (forUpTo n body s) := by
  intro n
  induction n with
  | zero => exact h0
  | succ n ih => rw [forUpTo_succ]; exact hs n _ ih

/-! ### Flags -/

theorem addResult_eq (a b : Byte) : addResult a b = a + b := by
  apply BitVec.eq_of_toNat_eq
  simp only [addResult, sum9, BitVec.extractLsb'_toNat, BitVec.toNat_add, BitVec.toNat_setWidth, Nat.shiftRight_zero]
  omega

/-- The carry is set exactly when the exact sum does not fit eight bits (R120). -/
theorem addCarry_eq (a b : Byte) : addCarry a b = decide (256 ≤ a.toNat + b.toNat) := by
  have ha := a.isLt
  have hb := b.isLt
  rw [addCarry, BitVec.getLsbD_eq_getElem (by decide), Bool.eq_iff_iff]
  simp only [sum9, BitVec.getElem_eq_testBit_toNat, BitVec.toNat_add, BitVec.toNat_setWidth, Nat.testBit, Nat.shiftRight_eq_div_pow,
    decide_eq_true_eq]
  simp
  omega

end Sys2Proof.Machine
end

