-- ==== Sys2Proof/Laws/PerInstr.lean ====
section
/-! SUPPORT. The per-instruction family EncodeRow: the word of every instruction selects that instruction's row of the opcode map,
`op AND mask = match` (spec/30_encoding.md rule R75, spec/44_optional_ef_extension.md rule R150). -/

namespace Sys2Proof.Laws.EncodeRow

/-- The encoded word of an instruction selects its row of Table R75 or Table R150. -/
def Statement (i : Instr) : Prop := encodeWord i &&& i.row.mask = i.row.value

theorem cls : Statement .cls := rfl

theorem ret : Statement .ret := rfl

theorem jp (addr : Addr) : Statement (.jp addr) := by
  simp only [Statement, Instr.row, encodeWord, and_F000, nib0_wordAddr]; rfl

theorem call (addr : Addr) : Statement (.call addr) := by
  simp only [Statement, Instr.row, encodeWord, and_F000, nib0_wordAddr]; rfl

theorem seImm (x : Nibble) (kk : Byte) : Statement (.seImm x kk) := by
  simp only [Statement, Instr.row, encodeWord, and_F000, nib0_wordXKk]; rfl

theorem sneImm (x : Nibble) (kk : Byte) : Statement (.sneImm x kk) := by
  simp only [Statement, Instr.row, encodeWord, and_F000, nib0_wordXKk]; rfl

theorem seReg (x y : Nibble) : Statement (.seReg x y) := by
  simp only [Statement, Instr.row, encodeWord, and_F00F, nib0_wordXYN, fieldN_wordXYN]; rfl

theorem ldImm (x : Nibble) (kk : Byte) : Statement (.ldImm x kk) := by
  simp only [Statement, Instr.row, encodeWord, and_F000, nib0_wordXKk]; rfl

theorem addImm (x : Nibble) (kk : Byte) : Statement (.addImm x kk) := by
  simp only [Statement, Instr.row, encodeWord, and_F000, nib0_wordXKk]; rfl

theorem ldReg (x y : Nibble) : Statement (.ldReg x y) := by
  simp only [Statement, Instr.row, encodeWord, and_F00F, nib0_wordXYN, fieldN_wordXYN]; rfl

theorem orReg (x y : Nibble) : Statement (.orReg x y) := by
  simp only [Statement, Instr.row, encodeWord, and_F00F, nib0_wordXYN, fieldN_wordXYN]; rfl

theorem andReg (x y : Nibble) : Statement (.andReg x y) := by
  simp only [Statement, Instr.row, encodeWord, and_F00F, nib0_wordXYN, fieldN_wordXYN]; rfl

theorem xorReg (x y : Nibble) : Statement (.xorReg x y) := by
  simp only [Statement, Instr.row, encodeWord, and_F00F, nib0_wordXYN, fieldN_wordXYN]; rfl

theorem addReg (x y : Nibble) : Statement (.addReg x y) := by
  simp only [Statement, Instr.row, encodeWord, and_F00F, nib0_wordXYN, fieldN_wordXYN]; rfl

theorem subReg (x y : Nibble) : Statement (.subReg x y) := by
  simp only [Statement, Instr.row, encodeWord, and_F00F, nib0_wordXYN, fieldN_wordXYN]; rfl

theorem shr (x y : Nibble) : Statement (.shr x y) := by
  simp only [Statement, Instr.row, encodeWord, and_F00F, nib0_wordXYN, fieldN_wordXYN]; rfl

theorem subnReg (x y : Nibble) : Statement (.subnReg x y) := by
  simp only [Statement, Instr.row, encodeWord, and_F00F, nib0_wordXYN, fieldN_wordXYN]; rfl

theorem shl (x y : Nibble) : Statement (.shl x y) := by
  simp only [Statement, Instr.row, encodeWord, and_F00F, nib0_wordXYN, fieldN_wordXYN]; rfl

theorem sneReg (x y : Nibble) : Statement (.sneReg x y) := by
  simp only [Statement, Instr.row, encodeWord, and_F00F, nib0_wordXYN, fieldN_wordXYN]; rfl

theorem ldI (addr : Addr) : Statement (.ldI addr) := by
  simp only [Statement, Instr.row, encodeWord, and_F000, nib0_wordAddr]; rfl

theorem jpV0 (addr : Addr) : Statement (.jpV0 addr) := by
  simp only [Statement, Instr.row, encodeWord, and_F000, nib0_wordAddr]; rfl

theorem rnd (x : Nibble) (kk : Byte) : Statement (.rnd x kk) := by
  simp only [Statement, Instr.row, encodeWord, and_F000, nib0_wordXKk]; rfl

theorem drw (x y n : Nibble) : Statement (.drw x y n) := by
  simp only [Statement, Instr.row, encodeWord, and_F000, nib0_wordXYN]; rfl

theorem skp (x : Nibble) : Statement (.skp x) := by
  simp only [Statement, Instr.row, encodeWord, and_F0FF, nib0_wordXKk, fieldKk_wordXKk]; rfl

theorem sknp (x : Nibble) : Statement (.sknp x) := by
  simp only [Statement, Instr.row, encodeWord, and_F0FF, nib0_wordXKk, fieldKk_wordXKk]; rfl

theorem ldVxDt (x : Nibble) : Statement (.ldVxDt x) := by
  simp only [Statement, Instr.row, encodeWord, and_F0FF, nib0_wordXKk, fieldKk_wordXKk]; rfl

theorem ldVxK (x : Nibble) : Statement (.ldVxK x) := by
  simp only [Statement, Instr.row, encodeWord, and_F0FF, nib0_wordXKk, fieldKk_wordXKk]; rfl

theorem ldDtVx (x : Nibble) : Statement (.ldDtVx x) := by
  simp only [Statement, Instr.row, encodeWord, and_F0FF, nib0_wordXKk, fieldKk_wordXKk]; rfl

theorem ldStVx (x : Nibble) : Statement (.ldStVx x) := by
  simp only [Statement, Instr.row, encodeWord, and_F0FF, nib0_wordXKk, fieldKk_wordXKk]; rfl

theorem addI (x : Nibble) : Statement (.addI x) := by
  simp only [Statement, Instr.row, encodeWord, and_F0FF, nib0_wordXKk, fieldKk_wordXKk]; rfl

theorem ldF (x : Nibble) : Statement (.ldF x) := by
  simp only [Statement, Instr.row, encodeWord, and_F0FF, nib0_wordXKk, fieldKk_wordXKk]; rfl

theorem ldB (x : Nibble) : Statement (.ldB x) := by
  simp only [Statement, Instr.row, encodeWord, and_F0FF, nib0_wordXKk, fieldKk_wordXKk]; rfl

theorem stRegs (x : Nibble) : Statement (.stRegs x) := by
  simp only [Statement, Instr.row, encodeWord, and_F0FF, nib0_wordXKk, fieldKk_wordXKk]; rfl

theorem ldRegs (x : Nibble) : Statement (.ldRegs x) := by
  simp only [Statement, Instr.row, encodeWord, and_F0FF, nib0_wordXKk, fieldKk_wordXKk]; rfl

end Sys2Proof.Laws.EncodeRow
end

