-- ==== Sys2Proof/Tests/Slice0.lean ====
section
/-! SUPPORT. Tests: words decoded by hand, one step at a time against the vectors of spec/95_test_vectors.md (their ids stand in the
comments), and for every obligation with hypotheses a state and operands that meet them. -/

namespace Sys2Proof.Tests

open Sys2Proof Sys2Proof.Machine

/-! ### Helpers -/

/-- The reset state with one word at `PC`. -/
def onWord (w : Nat) : State := State.reset.withFetchWord 16 w

/-- The same with the pc moved first. -/
def onWordAt (pc : Word) (w : Nat) : State := (setPc pc State.reset).withFetchWord 16 w

/-- A view of the state after one step; none when the step has no next state. -/
def see {α : Type} (f : State → α) (s : State) : Option α :=
  match step s with
  | .next t => some (f t)
  | _ => none

/-- The stack pointer set. -/
def withSp (n : Nat) (s : State) : State := { s with sp := BitVec.ofNat 8 n }

/-- One stack entry set. -/
def withStack (k : Fin 16) (w : Word) (s : State) : State := { s with stack := s.stack.set k.val w k.isLt }

/-- Scripted answers of the Display. -/
def withCollisions (cs : List Bool) (s : State) : State := { s with sources := { s.sources with collision := ⟨cs, 0⟩ } }

/-- Scripted answers of the random source. -/
def withRandom (bs : List Byte) (s : State) : State := { s with sources := { s.sources with random := ⟨bs, 0⟩ } }

/-- Scripted answers of `KeyPressed`. -/
def withKeys (bs : List Bool) (s : State) : State := { s with sources := { s.sources with key := ⟨bs, 0⟩ } }

/-- Scripted answers of `WaitKey`. -/
def withWait (ks : List (Option Nibble)) (s : State) : State := { s with sources := { s.sources with wait := ⟨ks, 0⟩ } }

/-- Scripted acts of the host on the delay counter. -/
def withDelay (ds : List (Option Byte)) (s : State) : State := { s with sources := { s.sources with delay := ⟨ds, 0⟩ } }

/-- A faulted core. -/
def faulted (c : FaultCause) (s : State) : State := { s with fault := some c }

/-- The switch off. -/
def baseline (s : State) : State := { s with extEF := false }

/-! ### Well-formedness and decoding -/

/-- R150: without the switch an instruction of the extension is ill-formed. -/
theorem test_wellFormed_refuses_extension : (Instr.skp 0x1#4).wellFormed false = false := by decide

/-- Each of the eleven is refused so, and each is accepted with the switch on. -/
theorem test_wellFormed_needs_switch :
    (rowInstrs.filter fun i => !i.wellFormed false).length = 11 ∧ rowInstrs.all (fun i => i.wellFormed true) = true := by decide

theorem test_decode_cls : decodeWord false 0b0000000011100000#16 = .ok .cls := by decide
theorem test_decode_ret : decodeWord false 0b0000000011101110#16 = .ok .ret := by decide
theorem test_decode_jp : decodeWord false 0b0001001000110100#16 = .ok (.jp 0x234#12) := by decide
theorem test_decode_call : decodeWord false 0b0010101010111100#16 = .ok (.call 0xABC#12) := by decide
theorem test_decode_seImm : decodeWord false 0b0011010000010010#16 = .ok (.seImm 0x4#4 0x12#8) := by decide
theorem test_decode_sneImm : decodeWord false 0b0100101101111101#16 = .ok (.sneImm 0xB#4 0x7D#8) := by decide
theorem test_decode_seReg : decodeWord false 0b0101000100100000#16 = .ok (.seReg 0x1#4 0x2#4) := by decide
theorem test_decode_ldImm : decodeWord false 0b0110101101110111#16 = .ok (.ldImm 0xB#4 0x77#8) := by decide
theorem test_decode_addImm : decodeWord false 0b0111000000001010#16 = .ok (.addImm 0x0#4 0x0A#8) := by decide
theorem test_decode_ldReg : decodeWord false 0b1000000100100000#16 = .ok (.ldReg 0x1#4 0x2#4) := by decide
theorem test_decode_orReg : decodeWord false 0b1000000100100001#16 = .ok (.orReg 0x1#4 0x2#4) := by decide
theorem test_decode_andReg : decodeWord false 0b1000000100100010#16 = .ok (.andReg 0x1#4 0x2#4) := by decide
theorem test_decode_xorReg : decodeWord false 0b1000000100100011#16 = .ok (.xorReg 0x1#4 0x2#4) := by decide
theorem test_decode_addReg : decodeWord false 0b1000111100010100#16 = .ok (.addReg 0xF#4 0x1#4) := by decide
theorem test_decode_subReg : decodeWord false 0b1000101010110101#16 = .ok (.subReg 0xA#4 0xB#4) := by decide
theorem test_decode_shr : decodeWord false 0b1000000100100110#16 = .ok (.shr 0x1#4 0x2#4) := by decide
theorem test_decode_subnReg : decodeWord false 0b1000101110100111#16 = .ok (.subnReg 0xB#4 0xA#4) := by decide
theorem test_decode_shl : decodeWord false 0b1000101000001110#16 = .ok (.shl 0xA#4 0x0#4) := by decide
theorem test_decode_sneReg : decodeWord false 0b1001000100100000#16 = .ok (.sneReg 0x1#4 0x2#4) := by decide
theorem test_decode_ldI : decodeWord false 0b1010001000001010#16 = .ok (.ldI 0x20A#12) := by decide
theorem test_decode_jpV0 : decodeWord false 0b1011001011111110#16 = .ok (.jpV0 0x2FE#12) := by decide
theorem test_decode_rnd : decodeWord false 0b1100000100001111#16 = .ok (.rnd 0x1#4 0x0F#8) := by decide
theorem test_decode_drw : decodeWord false 0b1101000100100011#16 = .ok (.drw 0x1#4 0x2#4 0x3#4) := by decide
theorem test_decode_skp : decodeWord true 0b1110000110011110#16 = .ok (.skp 0x1#4) := by decide
theorem test_decode_sknp : decodeWord true 0b1110000110100001#16 = .ok (.sknp 0x1#4) := by decide
theorem test_decode_ldVxDt : decodeWord true 0b1111001100000111#16 = .ok (.ldVxDt 0x3#4) := by decide
theorem test_decode_ldVxK : decodeWord true 0b1111001000001010#16 = .ok (.ldVxK 0x2#4) := by decide
theorem test_decode_ldDtVx : decodeWord true 0b1111000100010101#16 = .ok (.ldDtVx 0x1#4) := by decide
theorem test_decode_ldStVx : decodeWord true 0b1111000100011000#16 = .ok (.ldStVx 0x1#4) := by decide
theorem test_decode_addI : decodeWord true 0b1111000000011110#16 = .ok (.addI 0x0#4) := by decide
theorem test_decode_ldF : decodeWord true 0b1111001000101001#16 = .ok (.ldF 0x2#4) := by decide
theorem test_decode_ldB : decodeWord true 0b1111000000110011#16 = .ok (.ldB 0x0#4) := by decide
theorem test_decode_stRegs : decodeWord true 0b1111000101010101#16 = .ok (.stRegs 0x1#4) := by decide
theorem test_decode_ldRegs : decodeWord true 0b1111000101100101#16 = .ok (.ldRegs 0x1#4) := by decide

/-- T9: reserved words are rejected by name, those of the extension too while it is off. -/
theorem test_decode_rejects :
    ([0x5121#16, 0x9121#16, 0x8128#16, 0x812F#16, 0x00E1#16, 0x00EF#16, 0x0123#16, 0xE19E#16, 0xF107#16, 0xF10A#16].all
      fun op => decodeWord false op == .error (.unimplemented op)) = true := by decide

/-- T1, T2: big-endian bytes; one byte alone is no instruction. -/
theorem test_decode_bytes :
    decode false [0x12#8, 0x34#8, 0xFF#8] = .ok (.jp 0x234#12, [0xFF#8]) ∧
    decode false [0x34#8, 0x12#8] = .ok (.seImm 0x4#4 0x12#8, []) ∧ decode false [0x12#8] = .error .truncated := by decide

/-! ### The step -/

/-- T4: a fetch at 0xFFFE reads 0xFFE and 0xFFF, and `PC` wraps. -/
theorem test_step_wraps_pc : see (fun t => (readV 0xA#4 t, t.pc)) (onWordAt 0xFFFE#16 0x6A55) = some (0x55#8, 0x0000#16) := by decide

/-- T5: the second byte of a word at 0xFFF lies at 0x000. -/
theorem test_step_fetches_across_top :
    see (fun t => (readV 0xB#4 t, t.pc))
      (setPc 0x0FFF#16 (poke 0x000 0x77#8 (poke 0xFFF 0x6B#8 State.reset))) = some (0x77#8, 0x1001#16) := by decide

/-- S13: an unknown word surfaces a notice and only `PC` moves. -/
theorem test_step_unimplemented :
    see (fun t => (t.pc, t.events, t.fault, t.sp)) (baseline (withSp 1 (onWord 0xFFFF))) =
      some (0x0202#16, [.fetch 0x0200#16 0xFFFF#16, .notice 0xFFFF#16 0x0200#16], none, 1#8) ∧
    response (onWord 0xFFFF) = some (.okNotice 0xFFFF#16 0x0200#16) := by decide

/-- T10, Z2: a faulted core does nothing and answers its fault. -/
theorem test_step_latched : step (faulted .stackOverflow (withSp 16 (onWord 0x6001))) = .fault (.latched .stackOverflow) := rfl

/-! ### Control transfer -/

/-- F2: the sixteenth entry is popped. -/
theorem test_ret_pops :
    see (fun t => (t.sp, t.pc)) (withStack 15 0x0ABC#16 (withSp 16 (onWord 0x00EE))) = some (15#8, 0x0ABC#16) := by decide

/-- F3: an empty stack raises StackUnderflow, code 2, with `PC` advanced. -/
theorem test_ret_underflow :
    see (fun t => (faultCode t.fault, t.pc, t.sp, t.events)) (onWord 0x00EE) =
      some (2#2, 0x0202#16, 0#8, [.fetch 0x0200#16 0x00EE#16, .report .stackUnderflow]) ∧
    response (onWord 0x00EE) = some (.fault .stackUnderflow) := by decide

/-- F6. -/
theorem test_jp_top : see (·.pc) (onWord 0x1FFF) = some 0x0FFF#16 := by decide

/-- F10: the return address is not reduced. -/
theorem test_call_pushes :
    see (fun t => (t.stack[0], t.sp, t.pc)) (onWordAt 0x0FFE#16 0x2ABC) = some (0x1000#16, 1#8, 0x0ABC#16) := by decide

/-- F9: a full stack raises StackOverflow, code 1, and the stack stays. -/
theorem test_call_overflow :
    see (fun t => (faultCode t.fault, t.pc, t.sp, t.stack[15])) (withStack 15 0x0444#16 (withSp 16 (onWord 0x2300))) =
      some (1#2, 0x0202#16, 16#8, 0x0444#16) := by decide

/-- F13: `V[0]` is added, not the register the address names. -/
theorem test_jpV0_uses_v0 : see (·.pc) (writeV 0x2#4 0x10#8 (writeV 0x0#4 0x01#8 (onWord 0xB2FE))) = some 0x02FF#16 := by decide

/-- F12: the sum is not reduced to 12 bits. -/
theorem test_jpV0_unreduced : see (·.pc) (writeV 0x0#4 0xFF#8 (onWord 0xBFFF)) = some 0x10FE#16 := by decide

/-- F16. -/
theorem test_seImm_vf : see (·.pc) (writeVF 1#8 (onWord 0x3F01)) = some 0x0204#16 := by decide

/-- F17: the skip wraps too. -/
theorem test_seImm_wraps : see (·.pc) (onWordAt 0xFFFC#16 0x3000) = some 0x0000#16 := by decide

/-- F18, F19. -/
theorem test_sneImm :
    see (·.pc) (writeV 0xB#4 0x7D#8 (onWord 0x4B7D)) = some 0x0202#16 ∧
    see (·.pc) (writeV 0xB#4 0x7C#8 (onWord 0x4B7D)) = some 0x0204#16 := by decide

/-- F20, F22. -/
theorem test_seReg :
    see (·.pc) (writeV 0x3#4 0x99#8 (onWord 0x5330)) = some 0x0204#16 ∧
    see (·.pc) (writeV 0x2#4 0x01#8 (writeV 0x1#4 0xFF#8 (onWord 0x5120))) = some 0x0202#16 := by decide

/-- F21, S11. -/
theorem test_sneReg :
    see (·.pc) (writeV 0x3#4 0x99#8 (onWord 0x9330)) = some 0x0202#16 ∧
    see (·.pc) (writeV 0x2#4 8#8 (writeV 0x1#4 7#8 (onWord 0x9120))) = some 0x0204#16 := by decide

/-! ### Register loads and ALU -/

/-- A1, A2. -/
theorem test_ldImm : see (readV 0x0#4) (onWord 0x60FA) = some 0xFA#8 ∧ see vf (onWord 0x6F55) = some 0x55#8 := by decide

/-- A3: no carry flag. -/
theorem test_addImm :
    see (fun t => (readV 0x0#4 t, vf t)) (writeVF 0x55#8 (writeV 0x0#4 0xFA#8 (onWord 0x700A))) = some (0x04#8, 0x55#8) := by decide

/-- A6. -/
theorem test_ldReg : see (fun t => (readV 0x1#4 t, readV 0x2#4 t)) (writeV 0x2#4 0x33#8 (onWord 0x8120)) = some (0x33#8, 0x33#8) := by
  decide

/-- `V[1] = 0xF0`, `V[2]` given, `VF = 0x77`: the states of A7 to A9. -/
def logicState (v2 : Byte) (w : Nat) : State := writeVF 0x77#8 (writeV 0x2#4 v2 (writeV 0x1#4 0xF0#8 (onWord w)))

/-- A7. -/
theorem test_orReg : see (fun t => (readV 0x1#4 t, vf t)) (logicState 0x0F#8 0x8121) = some (0xFF#8, 0x77#8) := by decide

/-- A8. -/
theorem test_andReg : see (fun t => (readV 0x1#4 t, vf t)) (logicState 0x3C#8 0x8122) = some (0x30#8, 0x77#8) := by decide

/-- A9. -/
theorem test_xorReg : see (fun t => (readV 0x1#4 t, vf t)) (logicState 0x3C#8 0x8123) = some (0xCC#8, 0x77#8) := by decide

/-- S2: the carry. -/
theorem test_addReg :
    see (fun t => (readV 0x1#4 t, vf t)) (writeV 0x2#4 0x01#8 (writeV 0x1#4 0xFF#8 (onWord 0x8124))) = some (0x00#8, 1#8) := by decide

/-- A12: with `x = F` the carry survives and the sum is lost. -/
theorem test_addReg_vf : see vf (writeV 0x1#4 0x20#8 (writeVF 0xF0#8 (onWord 0x8F14))) = some 1#8 := by decide

/-- S4, A17: the borrow, and equal operands. -/
theorem test_subReg :
    see (fun t => (readV 0x1#4 t, vf t)) (writeV 0x2#4 2#8 (writeV 0x1#4 1#8 (onWord 0x8125))) = some (0xFF#8, 0#8) ∧
    see (fun t => (readV 0x1#4 t, vf t)) (writeV 0x2#4 5#8 (writeV 0x1#4 5#8 (onWord 0x8125))) = some (0#8, 1#8) := by decide

/-- A20: with `x = F` the flag survives and the difference is lost. -/
theorem test_subReg_vf : see vf (writeV 0x1#4 3#8 (writeVF 5#8 (onWord 0x8F15))) = some 1#8 := by decide

/-- A26: `V[y]` is ignored. -/
theorem test_shr :
    see (fun t => (readV 0x1#4 t, vf t, readV 0x2#4 t)) (writeV 0x2#4 0xF0#8 (writeV 0x1#4 0x03#8 (onWord 0x8126))) =
      some (0x01#8, 1#8, 0xF0#8) := by decide

/-- A27: the flag first, then shifted away. -/
theorem test_shr_vf : see vf (writeVF 0xFF#8 (onWord 0x8F06)) = some 0#8 := by decide

/-- A29, A28. -/
theorem test_subnReg :
    see (fun t => (readV 0x1#4 t, vf t)) (writeV 0x2#4 0x7F#8 (writeV 0x1#4 0x02#8 (onWord 0x8127))) = some (0x7D#8, 1#8) ∧
    see (fun t => (readV 0x1#4 t, vf t)) (writeV 0x2#4 0x02#8 (writeV 0x1#4 0x7F#8 (onWord 0x8127))) = some (0x83#8, 0#8) := by decide

/-- A32. -/
theorem test_subnReg_vf : see vf (writeV 0x1#4 3#8 (writeVF 5#8 (onWord 0x8F17))) = some 0#8 := by decide

/-- A34. -/
theorem test_shl : see (fun t => (readV 0x1#4 t, vf t)) (writeV 0x1#4 0xFF#8 (onWord 0x810E)) = some (0xFE#8, 1#8) := by decide

/-- A36: the flag first, then doubled. -/
theorem test_shl_vf : see vf (writeVF 0x80#8 (onWord 0x8F0E)) = some 2#8 := by decide

/-- A39. -/
theorem test_ldI : see (·.i) (setI 0x0123#16 (onWord 0xAFFF)) = some 0x0FFF#16 := by decide

/-- A40, A43. -/
theorem test_rnd :
    see (readV 0x1#4) (withRandom [0xA7#8] (onWord 0xC10F)) = some 0x07#8 ∧
    see vf (withRandom [0xFF#8] (onWord 0xCF0F)) = some 0x0F#8 := by decide

/-- A41: a zero mask still draws once. -/
theorem test_rnd_zero_mask :
    see (fun t => (readV 0x1#4 t, t.events.length)) (writeV 0x1#4 0x99#8 (withRandom [0xFF#8] (onWord 0xC100))) = some (0#8, 2) := by
  decide

/-! ### Display -/

/-- G1. -/
theorem test_cls : see (fun t => (t.events.drop 1, vf t)) (writeVF 1#8 (onWord 0x00E0)) = some ([.dispClear], 1#8) := by decide

/-- G5: two rows, the second read across the top of memory; a collision in the first row sets `VF`, the second is still drawn. -/
theorem test_drw_wraps :
    see (fun t => (t.events.drop 1, vf t, t.i))
      (withCollisions [true, false] (setI 0x0FFF#16 (poke 0x000 0x22#8 (poke 0xFFF 0x11#8 (onWord 0xD012))))) =
      some ([.memRead 0x0FFF 0x11#8, .dispDrawByte 0#8 0 0x11#8 true, .memRead 0x1000 0x22#8, .dispDrawByte 0#8 1 0x22#8 false,
        .dispUpdate], 1#8, 0x0FFF#16) := by decide

/-- G4, G6: the coordinate is the old `VF`, and a row coordinate is not reduced modulo 256. -/
theorem test_drw_coordinates :
    see (fun t => t.events.drop 1)
      (withCollisions [false, false] (writeVF 7#8 (writeV 0x1#4 0xFF#8 (setI 0x0300#16 (onWord 0xDF12))))) =
      some [.memRead 0x0300 0#8, .dispDrawByte 7#8 255 0#8 false, .memRead 0x0301 0#8, .dispDrawByte 7#8 256 0#8 false, .dispUpdate] := by
  decide

/-- H1, H2: the reference display lights columns 3 to 6, and the same draw again collides and darkens them. -/
theorem test_refDisplay_twice :
    RefDisplay.drawByte 3#8 2 0xF0#8 RefDisplay.clear = (false, RefDisplay.clear.set 2 0x78#64) ∧
    RefDisplay.drawByte 3#8 2 0xF0#8 (RefDisplay.clear.set 2 0x78#64) = (true, RefDisplay.clear) := by decide

/-- H3, H5: columns and rows wrap. -/
theorem test_refDisplay_wraps :
    RefDisplay.drawByte 62#8 0 0xFF#8 RefDisplay.clear = (false, RefDisplay.clear.set 0 0xC00000000000003F#64) ∧
    RefDisplay.drawByte 0#8 256 0x80#8 RefDisplay.clear = (false, RefDisplay.clear.set 0 1#64) := by decide

/-- P3: what the reference display shows of one draw's history, starting blank; with another answer the history is not its own. -/
theorem test_refDisplay_follow :
    (see (fun t => RefDisplay.follow RefDisplay.clear t.events)
      (withCollisions [false] (setI 0x0300#16 (poke 0x300 0xF0#8 (onWord 0xD001))))) = some (some (RefDisplay.clear.set 0 0xF#64)) ∧
    (see (fun t => RefDisplay.follow RefDisplay.clear t.events)
      (withCollisions [true] (setI 0x0300#16 (poke 0x300 0xF0#8 (onWord 0xD001))))) = some none := by decide

/-! ### The extension -/

/-- X1. -/
theorem test_skp : see (fun t => (t.pc, t.events.drop 1)) (withKeys [true] (writeV 0x1#4 5#8 (onWord 0xE19E))) =
    some (0x0204#16, [.keyPressed 5#8 true]) := by decide

/-- X2. -/
theorem test_sknp : see (·.pc) (withKeys [true] (writeV 0x1#4 5#8 (onWord 0xE1A1))) = some 0x0202#16 := by decide

/-- X3: the host set the counter, or left it. -/
theorem test_ldVxDt :
    see (readV 0x3#4) (withDelay [some 0x2A#8] (onWord 0xF307)) = some 0x2A#8 ∧
    see (readV 0x3#4) (withDelay [none] { onWord 0xF307 with delay := 0x2A#8 }) = some 0x2A#8 := by decide

/-- X4, X5. -/
theorem test_ldVxK :
    see (·.pc) (withWait [none] (onWordAt 0x0300#16 0xF20A)) = some 0x0300#16 ∧
    see (fun t => (readV 0x2#4 t, t.pc)) (withWait [some 7#4] (onWordAt 0x0300#16 0xF20A)) = some (7#8, 0x0302#16) := by decide

/-- X6. -/
theorem test_ldDtVx : see (fun t => (t.delay, t.events.drop 1)) (writeV 0x1#4 60#8 (onWord 0xF115)) =
    some (60#8, [.timerWrite .dt 60#8]) := by decide

/-- X7. -/
theorem test_ldStVx : see (fun t => (t.sound, t.events.drop 1)) (writeV 0x1#4 4#8 (onWord 0xF118)) =
    some (4#8, [.timerWrite .st 4#8]) := by decide

/-- X8. -/
theorem test_addI : see (fun t => (t.i, vf t)) (setI 0x0FFE#16 (writeV 0x0#4 4#8 (onWord 0xF01E))) = some (0x1002#16, 0#8) := by decide

/-- X9, X10: 0x0A and 0x3A name the same glyph, the tenth of five bytes each. -/
theorem test_ldF :
    see (·.i) (writeV 0x2#4 0x3A#8 (onWord 0xF229)) = some (Config.fontBase + 50#16) ∧
    see (·.i) (writeV 0x2#4 0x0A#8 (onWord 0xF229)) = some (Config.fontBase + 50#16) := ⟨rfl, rfl⟩

/-- X11. -/
theorem test_ldB :
    see (fun t => (peek t 0x300, peek t 0x301, peek t 0x302, t.i)) (setI 0x0300#16 (writeV 0x0#4 0xFE#8 (onWord 0xF033))) =
      some (2#8, 5#8, 4#8, 0x0300#16) := by decide

/-- X12, with `V[2]` not stored. -/
theorem test_stRegs :
    see (fun t => (peek t 0x300, peek t 0x301, peek t 0x302, t.i))
      (setI 0x0300#16 (writeV 0x2#4 3#8 (writeV 0x1#4 2#8 (writeV 0x0#4 1#8 (onWord 0xF155))))) =
      some (1#8, 2#8, 0#8, 0x0300#16) := by decide

/-- X13, with the third byte not loaded. -/
theorem test_ldRegs :
    see (fun t => (readV 0x0#4 t, readV 0x1#4 t, readV 0x2#4 t, t.i))
      (setI 0x0300#16 (poke 0x302 7#8 (poke 0x301 8#8 (poke 0x300 9#8 (onWord 0xF165))))) =
      some (9#8, 8#8, 0#8, 0x0300#16) := by decide

/-! ### Memory and host -/

/-- Writing what an unlisted address reads as removes the entry. -/
theorem test_poke_canonical : (poke 0x1005 0#8 (poke 0x5 7#8 State.reset)).mem = [] := by decide

/-- Z1: reset clears the core, memory stays. -/
theorem test_reset :
    (hostAct .reset (poke 0x300 9#8 (faulted .stackUnderflow (withSp 4 (setI 0x0ABC#16 (setPc 0x0456#16 (writeV 0x3#4 9#8 State.reset))))))) =
      poke 0x300 9#8 State.reset := by decide

/-- The loader puts the first byte at 0x200. -/
theorem test_load : fetchWord (loadProgram [0x60#8, 0x05#8] State.reset) = 0x6005#16 := by decide

/-! ### Witnesses: what meets the hypotheses of each obligation -/

/-- Every family, at the largest operands. -/
theorem witness_DecodeOfEncode :
    (Instr.ldRegs 0xF#4).wellFormed true = true ∧ (Instr.drw 0xF#4 0xF#4 0xF#4).wellFormed false = true := by decide

theorem witness_EncodeOfDecode :
    decodeWord true 0xFF65#16 = .ok (.ldRegs 0xF#4) ∧ decodeWord false 0xDFFF#16 = .ok (.drw 0xF#4 0xF#4 0xF#4) := by decide

/-- A word of a row, one of the extension, and one of no row. -/
theorem witness_OpcodeMapDisjointAndTotal :
    Instr.cls.row ∈ opcodeMap ∧ Instr.cls.row.selectedBy true 0x00E0#16 = true ∧ decodeWord false 0x8FF6#16 = .ok (.shr 0xF#4 0xF#4) ∧
    decodeWord true 0xFFFF#16 = .error (.unimplemented 0xFFFF#16) := by decide

theorem witness_UnimplementedWords :
    (onWord 0x0000).fault = none ∧
    decodeWord (onWord 0x0000).extEF (fetchWord (onWord 0x0000)) = .error (.unimplemented (fetchWord (onWord 0x0000))) := by decide

theorem witness_ExtensionSwitch :
    0xE ≤ (0xE000#16).toNat / 4096 ∧ 0xE ≤ (0xFFFF#16).toNat / 4096 ∧ extensionWord (0xFF65#16).toNat = true ∧
    extensionWord (0xFFFF#16).toNat = false := by decide

theorem witness_PlacedInstructionRuns : State.reset.mem.wf = true ∧ (poke 0xFFF 1#8 State.reset).mem.wf = true := by decide

/-- One state for each clause: a faulted one, one whose word decodes, one whose word does not. -/
theorem witness_StepRunsDecodedInstruction :
    (faulted .stackUnderflow State.reset).fault = some .stackUnderflow ∧ (onWord 0x1200).fault = none ∧
    decodeWord (onWord 0x1200).extEF (wordOfBytes ((onWord 0x1200).mem.read 0x200) ((onWord 0x1200).mem.read 0x201)) = .ok (.jp 0x200#12) ∧
    decodeWord State.reset.extEF (wordOfBytes (State.reset.mem.read 0x200) (State.reset.mem.read 0x201)) =
      .error (.unimplemented 0x0000#16) := by decide

/-- The call at `SP` 15 and 16, the return at `SP` 0 and 1, and a faulted core. -/
theorem witness_ResponseOfEveryStep :
    ((withSp 15 (onWord 0x2300)).Inv ∧ (withSp 15 (onWord 0x2300)).fault = none) ∧
    ((withSp 16 (onWord 0x2300)).Inv ∧ (withSp 16 (onWord 0x2300)).fault = none) ∧
    (faulted .stackUnderflow State.reset).fault = some .stackUnderflow ∧
    ((withSp 0 (onWord 0x00EE)).Inv ∧ (withSp 1 (onWord 0x00EE)).Inv ∧ (onWord 0xFFFF).Inv) := by decide

/-- A faulted state, and a baseline step of each kind of transaction that ends in a next state. -/
theorem witness_TransactionsOfAStep :
    (faulted .stackOverflow State.reset).fault ≠ none ∧
    ([0xFFFF, 0x00E0, 0xD010, 0x2300, 0x00EE, 0x6001].all fun w =>
      (baseline (onWord w)).fault == none && (see (fun t => t.extEF) (baseline (onWord w))) == some false) = true ∧
    see (fun t => t.extEF) (withRandom [0#8] (onWord 0xC1FF)) = some false ∧
    see (fun t => t.extEF) (withCollisions [true] (onWord 0xD011)) = some false ∧
    see (fun t => t.fault) (withSp 16 (onWord 0x2300)) = some (some .stackOverflow) := by decide

/-- Each arm of the rule is met, jumps at the top of memory and both sides of each skip. -/
theorem witness_PcOfEveryStep :
    see (·.pc) (onWord 0x1FFF) = some 0x0FFF#16 ∧ see (·.pc) (withSp 15 (onWord 0x2FFF)) = some 0x0FFF#16 ∧
    see (·.pc) (withSp 16 (onWord 0x2FFF)) = some 0x0202#16 ∧ see (·.pc) (withSp 0 (onWord 0x00EE)) = some 0x0202#16 ∧
    see (·.pc) (withSp 1 (onWord 0x00EE)) = some 0x0000#16 ∧ see (·.pc) (writeV 0x0#4 0xFF#8 (onWord 0xBFFF)) = some 0x10FE#16 ∧
    see (·.pc) (onWord 0x3000) = some 0x0204#16 ∧ see (·.pc) (onWord 0x3001) = some 0x0202#16 ∧
    see (·.pc) (onWord 0x4000) = some 0x0202#16 ∧ see (·.pc) (onWord 0x4001) = some 0x0204#16 := by decide

/-- `V[x] = F` written; the two storing forms where their bytes wrap at the top of memory, with the first address past the bytes. -/
theorem witness_EveryInstructionChangesOnlyWhatItWrites :
    (∃ t, exec (.ldB 0x0#4) (setI 0x0FFE#16 State.reset) = .next t) ∧ (∃ t, exec (.stRegs 0xF#4) (setI 0x0FFE#16 State.reset) = .next t) ∧
    (∀ k, k < storedBytes (.ldB 0x0#4) → 0x001 % 4096 ≠ indexAddr (setI 0x0FFE#16 State.reset) k % 4096) ∧
    (∀ k, k < storedBytes (.stRegs 0xF#4) → 0x00E % 4096 ≠ indexAddr (setI 0x0FFE#16 State.reset) k % 4096) ∧
    exec (.ldImm 0xF#4 1#8) State.reset = .next (writeVF 1#8 State.reset) ∧ writesV (.ldImm 0xF#4 1#8) 0xE#4 = false :=
  ⟨⟨_, rfl⟩, ⟨_, rfl⟩, by decide, by decide, rfl, rfl⟩

/-- Two states that differ in the delay counter, the switch and the history. -/
theorem witness_EffectDependsOnlyOnCoreMemoryAndAnswers :
    State.reset.registerFile = ({ State.reset with delay := 9#8, extEF := true, events := [.dispClear] } : State).registerFile ∧
    State.reset.mem = ({ State.reset with delay := 9#8, extEF := true, events := [.dispClear] } : State).mem ∧
    State.reset.sources = ({ State.reset with delay := 9#8, extEF := true, events := [.dispClear] } : State).sources ∧
    exec (.jp 0x300#12) State.reset = .next (setPc 0x0300#16 State.reset) := ⟨rfl, rfl, rfl, rfl⟩

theorem witness_ByteWriteThenRead :
    (poke 0xFFF 7#8 State.reset).mem.wf = true ∧ peek (poke 0xFFF 7#8 State.reset) 0x1FFF = 7#8 ∧ 0x1FFF % 4096 = 0xFFF % 4096 := by
  decide

theorem witness_BaselineNeverWritesMemory :
    (onWord 0x6001).extEF = false ∧ see (fun t => t.pc) (onWord 0x6001) = some 0x0202#16 ∧ (onWord 0x6001).mem.wf = true := by decide

/-- `SP` at 1 and at 16; and at 0. -/
theorem witness_RetResult :
    (0 < (withSp 1 State.reset).sp.toNat ∧ (withSp 1 State.reset).sp.toNat ≤ 16) ∧
    (0 < (withSp 16 State.reset).sp.toNat ∧ (withSp 16 State.reset).sp.toNat ≤ 16) ∧ State.reset.sp = 0#8 := by decide

/-- `SP` at 0 and at 15; and at 16. -/
theorem witness_CallResult :
    State.reset.sp.toNat < 16 ∧ (withSp 15 State.reset).sp.toNat < 16 ∧ (withSp 16 State.reset).sp = 16#8 := by decide

theorem witness_StackPointerOutOfRangeIsRefused :
    16 < (withSp 17 State.reset).sp.toNat ∧ 16 < (withSp 255 State.reset).sp.toNat := by decide

/-- A call at 0x204 to the return at 0x210, `SP = k`. -/
def callState (k : Fin 16) : State :=
  withSp k.val (setPc 0x0204#16 (poke 0x211 0xEE#8 (poke 0x204 0x22#8 (poke 0x205 0x10#8 State.reset))))

/-- The state after the call of `callState k`. -/
def afterCall (k : Fin 16) : State :=
  { withSp (k.val + 1) (withStack k 0x0206#16 (callState k)) with pc := 0x0210#16, events := [.fetch 0x0204#16 0x2210#16] }

/-- The same after a move of the host. -/
def beforeReturn (k : Fin 16) : State := hostAct (.setTimer .dt 3#8) (afterCall k)

/-- S8: the call and its return at `SP` 0, with a host move between them. -/
theorem witness_CallReturnRoundTrip_empty :
    (callState 0).fault = none ∧ (callState 0).sp.toNat = 0 ∧
    decodeWord (callState 0).extEF (fetchWord (callState 0)) = .ok (.call 0x210#12) ∧ step (callState 0) = .next (afterCall 0) ∧
    RunWithoutCallAt 0 (afterCall 0) (beforeReturn 0) ∧ (beforeReturn 0).fault = none ∧ (beforeReturn 0).sp.toNat = 1 ∧
    decodeWord (beforeReturn 0).extEF (fetchWord (beforeReturn 0)) = .ok .ret :=
  ⟨by decide, by decide, by decide, rfl, .host _ _ (.setTimer .dt 3#8) (by decide) (.refl _), by decide, by decide, by decide⟩

/-- The same at `SP` 15, which the call fills. -/
theorem witness_CallReturnRoundTrip_full :
    (callState 15).fault = none ∧ (callState 15).sp.toNat = 15 ∧
    decodeWord (callState 15).extEF (fetchWord (callState 15)) = .ok (.call 0x210#12) ∧ step (callState 15) = .next (afterCall 15) ∧
    RunWithoutCallAt 15 (afterCall 15) (beforeReturn 15) ∧ (beforeReturn 15).fault = none ∧ (beforeReturn 15).sp.toNat = 16 ∧
    decodeWord (beforeReturn 15).extEF (fetchWord (beforeReturn 15)) = .ok .ret :=
  ⟨by decide, by decide, by decide, rfl, .host _ _ (.setTimer .dt 3#8) (by decide) (.refl _), by decide, by decide, by decide⟩

theorem witness_LoadAndAddImmediateResults : (0x0#4 : Nibble) ≠ 0xF#4 ∧ (0xF#4 : Nibble) ≠ 0x0#4 := by decide

theorem witness_LogicResults : (0x0#4 : Nibble) ≠ 0xF#4 ∧ (0xF#4 : Nibble) ≠ 0xE#4 := by decide

/-- `x` below F, equal operands and a borrow by one. -/
theorem witness_SubtractResults :
    (0xE#4 : Nibble) ≠ 0xF#4 ∧ (0x0#4 : Nibble) ≠ 0xE#4 ∧ (0x0#4 : Nibble) ≠ 0xF#4 ∧ (5#8 : Byte).toNat ≤ (5#8 : Byte).toNat ∧
    ¬(1#8 : Byte).toNat ≤ (0#8 : Byte).toNat := by decide

/-- Both clauses, `x` below F and `x` at F. -/
theorem witness_ShiftResults : (0xE#4 : Nibble) ≠ 0xF#4 ∧ (0xF#4 : Nibble) = 0xF#4 ∧ (0x0#4 : Nibble) ≠ 0xE#4 := by decide

/-- Operands at both sides of the carry, and `x` other than F. -/
theorem witness_AddRegResult :
    (0xE#4 : Nibble) ≠ 0xF#4 ∧ ¬256 ≤ (0xFE#8 : Byte).toNat + (0x01#8 : Byte).toNat ∧
    256 ≤ (0xFF#8 : Byte).toNat + (0x01#8 : Byte).toNat := by decide

theorem witness_FlagRegisterAsOperand :
    (0xE#4 : Nibble) ≠ 0xF#4 ∧ (vf (writeVF 0x80#8 State.reset)).toNat = 128 ∧ (readV 0xE#4 (writeVF 0x80#8 State.reset)).toNat = 0 := by
  decide

theorem witness_LdIResult :
    Instr.cls.isExtension = false ∧ (∀ addr, Instr.cls ≠ .ldI addr) ∧ exec .cls State.reset = .next (dispClear State.reset) :=
  ⟨rfl, (by intro addr h; cases h), rfl⟩

theorem witness_RndResult : (withRandom [0xFF#8] State.reset).sources.random.script = 0xFF#8 :: [] := by decide

/-- No row, and fifteen rows. -/
theorem witness_DrwResult :
    (withCollisions [true] State.reset).sources.collision.script = [] ++ [true] ∧ ([] : List Bool).length = (0x0#4 : Nibble).toNat ∧
    (withCollisions (List.replicate 15 true) State.reset).sources.collision.script = List.replicate 15 true ++ [] ∧
    (List.replicate 15 true).length = (0xF#4 : Nibble).toNat := by decide

theorem witness_KeySkipResults : (withKeys [true] State.reset).sources.key.script = true :: [] := by decide

theorem witness_TimerReadResult :
    (withDelay [none] State.reset).sources.delay.script = none :: [] ∧
    (withDelay [some 0xFF#8] State.reset).sources.delay.script = some 0xFF#8 :: [] := by decide

/-- Both answers come up. -/
theorem witness_KeyWaitResult :
    (withWait [none] State.reset).sources.wait.script = none :: [] ∧
    (withWait [some 0xF#4] State.reset).sources.wait.script = some 0xF#4 :: [] := by decide

/-- `I` where the three bytes wrap. -/
theorem witness_BcdResult :
    (setI 0x0FFE#16 State.reset).mem.wf = true ∧ (setI 0x0FFE#16 State.reset).i.toNat = 0xFFE ∧
    (∀ k, k < 3 → 0x001 % 4096 ≠ (0xFFE + k) % 4096) := by decide

theorem witness_StoreRegistersResult :
    (setI 0xFFFF#16 (poke 0xFFF 3#8 State.reset)).mem.wf = true ∧ (0xF#4 : Nibble).toNat ≤ (0xF#4 : Nibble).toNat ∧
    (∀ k, k ≤ (0xF#4 : Nibble).toNat → 0x00F % 4096 ≠ (0xFFFF + k) % 4096) := by decide

theorem witness_LoadRegistersResult : (0x0#4 : Nibble).toNat < (0x1#4 : Nibble).toNat ∧ (0xF#4 : Nibble).toNat ≤ (0xF#4 : Nibble).toNat := by
  decide

/-- The stores reach the word at `PC`, across the top of memory as well. -/
theorem witness_StoreSeenByNextFetch :
    (setI 0x0FFF#16 (setPc 0x0FFF#16 State.reset)).mem.wf = true ∧ 0 + 1 ≤ (0x1#4 : Nibble).toNat ∧
    (setPc 0x0FFF#16 State.reset).pc.toNat % 4096 = ((setI 0x0FFF#16 State.reset).i.toNat + 0) % 4096 ∧
    14 + 1 ≤ (0xF#4 : Nibble).toNat ∧ 0x000E % 4096 = (0x1000 + 14) % 4096 := by decide

theorem witness_FaultIsPreciseAndReportedOnce :
    (onWord 0x00EE).fault = none ∧ see (·.fault) (onWord 0x00EE) = some (some .stackUnderflow) ∧
    see (·.fault) (withSp 16 (onWord 0x2300)) = some (some .stackOverflow) := by decide

theorem witness_FaultLatch :
    see (·.fault) (onWord 0x6001) = some none ∧ see (·.fault) (withSp 16 (onWord 0x2300)) = some (some .stackOverflow) ∧
    see (·.fault) (onWord 0x00EE) = some (some .stackUnderflow) := by decide

theorem witness_HostReachesRegistersOnlyByReset : HostMove.writeMem 0xFFF 1#8 ≠ .reset ∧ HostMove.setTimer .st 1#8 ≠ .reset := by decide

theorem witness_ProgramIsLoadedAt200 :
    State.reset.mem.wf = true ∧ (List.replicate 4096 1#8).length ≤ 4096 ∧ 4095 < (List.replicate 4096 1#8).length := by
  simp only [List.length_replicate]; decide

theorem witness_InvAtReset : Memory.wf [(0x000, 1#8), (0xFFF, 0xFF#8)] = true := by decide

/-- `SP` and `I` at their limits, and a step from there. -/
theorem witness_StepKeepsInv :
    (setI 0x0FFF#16 (withSp 15 (onWord 0x2300))).Inv ∧ see (·.sp) (setI 0x0FFF#16 (withSp 15 (onWord 0x2300))) = some 16#8 := by decide

/-- A state one step and one host move after reset, on the machine with the extension. -/
theorem witness_ReachableStatesHaveInv :
    Reachable true (hostAct (.writeMem 0x300 1#8)
      { State.powerOn [(0x200, 0xA2#8), (0x201, 0x0A#8)] with
          extEF := true, i := 0x020A#16, pc := 0x0202#16, events := [.fetch 0x0200#16 0xA20A#16] }) :=
  .host _ _ (.step _ _ (.start [(0x200, 0xA2#8), (0x201, 0x0A#8)] Sources.fresh (by decide)) rfl)

/-- F5, P7: the jumps to themselves at 0x200, at 0 and at 0xFFF; and a faulted state. -/
theorem witness_EndOfARunIsFinal :
    (onWord 0x1200).EndedWell ∧ (onWordAt 0x0000#16 0x1000).EndedWell ∧ (onWordAt 0x0FFF#16 0x1FFF).EndedWell ∧
    (faulted .stackOverflow State.reset).EndedBadly := by
  unfold State.EndedWell State.EndedBadly; decide

/-- A call at `SP = 15` and the entry 14 below it, which it keeps; a return; a host move. -/
theorem witness_StepKeepsStackEntry :
    see (·.sp) (withSp 15 (onWord 0x2300)) = some 16#8 ∧ (withSp 15 (onWord 0x2300)).sp.toNat ≠ 14 ∧
    see (·.sp) (withSp 16 (onWord 0x00EE)) = some 15#8 ∧ decodeWord false (fetchWord (onWord 0x00EE)) = .ok .ret ∧
    HostMove.setTimer .dt 1#8 ≠ .reset := by decide

end Sys2Proof.Tests
end

section
/-! What a frame says of one part, and the frame of every shared operation, of the rising walk and of every instruction
(spec/10_state.md Table R33, spec/44_optional_ef_extension.md rules R152 to R162). -/

namespace Sys2Proof.Machine

/-! ### Reading a frame -/

section
variable {l : List Part} {s t : State}

theorem State.SameBut.readV_eq (h : s.SameBut l t) (hl : .v ∉ l) (z : Nibble) : readV z t = readV z s := by
  obtain ⟨hv, -⟩ := h
  exact hv.resolve_left hl z

theorem State.SameBut.i_eq (h : s.SameBut l t) (hl : .i ∉ l) : t.i = s.i := by
  obtain ⟨-, hi, -⟩ := h
  exact hi.resolve_left hl

theorem State.SameBut.pc_eq (h : s.SameBut l t) (hl : .pc ∉ l) : t.pc = s.pc := by
  obtain ⟨-, -, hpc, -⟩ := h
  exact hpc.resolve_left hl

theorem State.SameBut.sp_eq (h : s.SameBut l t) (hl : .sp ∉ l) : t.sp = s.sp := by
  obtain ⟨-, -, -, hsp, -⟩ := h
  exact hsp.resolve_left hl

theorem State.SameBut.stack_eq (h : s.SameBut l t) (hl : .stack ∉ l) : t.stack = s.stack := by
  obtain ⟨-, -, -, -, hstack, -⟩ := h
  exact hstack.resolve_left hl

theorem State.SameBut.fault_eq (h : s.SameBut l t) (hl : .fault ∉ l) : t.fault = s.fault := by
  obtain ⟨-, -, -, -, -, hfault, -⟩ := h
  exact hfault.resolve_left hl

theorem State.SameBut.mem_eq (h : s.SameBut l t) (hl : .mem ∉ l) : t.mem = s.mem := by
  obtain ⟨-, -, -, -, -, -, hmem, -⟩ := h
  exact (hmem.resolve_left hl).1

theorem State.SameBut.peek_eq (h : s.SameBut l t) (hl : .mem ∉ l) (a : Nat) : peek t a = peek s a := by
  obtain ⟨-, -, -, -, -, -, hmem, -⟩ := h
  exact (hmem.resolve_left hl).2 a

theorem State.SameBut.extEF_eq (h : s.SameBut l t) : t.extEF = s.extEF := by
  obtain ⟨-, -, -, -, -, -, -, -, -, -, -, hext⟩ := h
  exact hext

end

/-! ### The frame of every shared operation -/

theorem emit_sameBut (e : Event) (s : State) : s.SameBut [.events] (emit e s) := by simp [State.SameBut]

theorem writeV_sameBut (x : Nibble) (b : Byte) (s : State) : s.SameBut [.v] (writeV x b s) := by simp [State.SameBut]

theorem setI_sameBut (w : Word) (s : State) : s.SameBut [.i] (setI w s) := by simp [State.SameBut]

theorem setPc_sameBut (w : Word) (s : State) : s.SameBut [.pc] (setPc w s) := by simp [State.SameBut]

theorem skipIf_sameBut (c : Bool) (s : State) : s.SameBut [.pc] (skipIf c s) := by
  rw [skipIf_eq]
  exact setPc_sameBut _ s

theorem writeResultThenFlag_sameBut (x : Nibble) (r f : Byte) (s : State) : s.SameBut [.v] (writeResultThenFlag x r f s) :=
  sameBut_trans (writeV_sameBut x r s) (writeV_sameBut 0xF#4 f _)

theorem writeFlagThenShift_sameBut (x : Nibble) (f : Byte) (g : Byte → Byte) (s : State) :
    s.SameBut [.v] (writeFlagThenShift x f g s) :=
  sameBut_trans (writeV_sameBut 0xF#4 f s) (writeV_sameBut x _ _)

theorem memWrite_sameBut (a : Nat) (b : Byte) (s : State) : s.SameBut [.mem, .events] (memWrite a b s) := by
  simp [State.SameBut]

theorem raiseFault_sameBut (c : FaultCause) (s : State) : s.SameBut [.fault, .events] (raiseFault c s) := by
  simp [State.SameBut]

theorem pushWord_sameBut (w : Word) (s : State) (h : s.sp.toNat < 16) : s.SameBut [.stack, .sp] (pushWord w s h) := by
  simp [State.SameBut]

theorem popWord_sameBut (s : State) (h : 0 < s.sp.toNat ∧ s.sp.toNat ≤ 16) : s.SameBut [.sp] (popWord s h).2 := by
  simp [State.SameBut]

theorem randomByte_sameBut (s : State) : s.SameBut [.sources, .events] (randomByte s).2 := by simp [State.SameBut]

theorem keyPressed_sameBut (key : Byte) (s : State) : s.SameBut [.sources, .events] (keyPressed key s).2 := by
  simp [State.SameBut]

theorem waitKey_sameBut (s : State) : s.SameBut [.sources, .events] (waitKey s).2 := by simp [State.SameBut]

theorem dispDrawByte_sameBut (xp : Byte) (yp : Nat) (b : Byte) (s : State) :
    s.SameBut [.sources, .events] (dispDrawByte xp yp b s).2 := by simp [State.SameBut]

theorem timerReadDelay_sameBut (s : State) : s.SameBut [.delay, .sources, .events] (timerReadDelay s).2 := by
  simp [State.SameBut]

theorem takeKey_sameBut (x : Nibble) (key : Option Nibble) (s : State) : s.SameBut [.v, .pc] (takeKey x key s) := by
  cases key with
  | none => exact sameBut_mono (by decide) (setPc_sameBut _ s)
  | some k => exact sameBut_mono (by decide) (writeV_sameBut x _ s)

/-- Two operations one after the other change what either may change. -/
theorem sameBut_seq {l l' m : List Part} {s t u : State} (h : s.SameBut l t) (h' : t.SameBut l' u)
    (hm : ∀ p ∈ l ++ l', p ∈ m) : s.SameBut m u :=
  sameBut_trans (sameBut_mono (fun p hp => hm p (List.mem_append_left l' hp)) h)
    (sameBut_mono (fun p hp => hm p (List.mem_append_right l hp)) h')

/-! ### The walks -/

/-- A walk changes no more than each of its steps may. -/
theorem forUpTo_sameBut {l : List Part} {body : Nat → State → State} (h : ∀ k (t : State), t.SameBut l (body k t))
    (n : Nat) (s : State) : s.SameBut l (forUpTo n body s) :=
  forUpTo_induct (P := fun _ t => s.SameBut l t) (sameBut_refl l s) (fun k t ht => sameBut_trans ht (h k t)) n

/-- The state after a row of a sprite is read and the Display has answered for it, `VF` not yet written (R141). -/
def askRow (xp yp : Byte) (r : Nat) (s : State) : State :=
  (dispDrawByte xp (yp.toNat + r) (peek s (indexAddr s r)) (memRead (indexAddr s r) s).2).2

/-- A row sets `VF` exactly when the Display's next answer is a collision. -/
theorem drawRow_eq (xp yp : Byte) (r : Nat) (s : State) :
    drawRow xp yp r s =
      if (s.sources.collision.draw Config.collision).1 then writeVF 1#8 (askRow xp yp r s) else askRow xp yp r s := rfl

theorem askRow_sameBut (xp yp : Byte) (r : Nat) (s : State) : s.SameBut [.sources, .events] (askRow xp yp r s) :=
  sameBut_seq (emit_sameBut _ s) (dispDrawByte_sameBut _ _ _ _) (by decide)

theorem drawRow_sameBut (xp yp : Byte) (r : Nat) (s : State) : s.SameBut [.v, .sources, .events] (drawRow xp yp r s) := by
  rw [drawRow_eq]
  split
  · exact sameBut_seq (askRow_sameBut xp yp r s) (writeV_sameBut 0xF#4 1#8 _) (by decide)
  · exact sameBut_mono (by decide) (askRow_sameBut xp yp r s)

theorem readV_drawRow_of_ne {z : Nibble} (hz : z ≠ 0xF#4) (xp yp : Byte) (r : Nat) (s : State) :
    readV z (drawRow xp yp r s) = readV z s := by
  have hask : readV z (askRow xp yp r s) = readV z s := (askRow_sameBut xp yp r s).readV_eq (by decide) z
  rw [drawRow_eq]
  split
  · exact (readV_writeV_of_ne hz 1#8 _).trans hask
  · exact hask

theorem loadRow_sameBut (k : Nat) (s : State) : s.SameBut [.v, .events] (loadRow k s) :=
  sameBut_seq (emit_sameBut _ s) (writeV_sameBut _ _ _) (by decide)

/-- Loading `n` registers leaves the registers from `n` on alone (R162). -/
theorem readV_forUpTo_loadRow {n : Nat} {z : Nibble} (hz : n ≤ z.toNat) (s : State) :
    readV z (forUpTo n loadRow s) = readV z s := by
  refine forUpTo_induct (P := fun k t => k ≤ z.toNat → readV z t = readV z s) (fun _ => rfl) (fun k t ih hk => ?_) n hz
  have hne : z ≠ BitVec.ofNat 4 k := by
    rintro rfl
    rw [BitVec.toNat_ofNat] at hk
    exact absurd (Nat.mod_le k (2 ^ 4)) (by omega)
  exact (readV_writeV_of_ne hne _ _).trans (ih (by omega))

/-- Storing `n` bytes upward from `I`, the byte chosen by the number of the step and the state: the walk of `Fx33` and `Fx55`. -/
def storeUp (f : Nat → State → Byte) (n : Nat) (s : State) : State :=
  forUpTo n (fun k t => memWrite (indexAddr t k) (f k t) t) s

theorem execLdB_eq (x : Nibble) (s : State) : execLdB x s = .next (storeUp (fun k _ => bcdDigit (readV x s) k) 3 s) := rfl

theorem execStRegs_eq (x : Nibble) (s : State) :
    execStRegs x s = .next (storeUp (fun k t => readV (BitVec.ofNat 4 k) t) (x.toNat + 1) s) := rfl

theorem storeUp_sameBut (f : Nat → State → Byte) (n : Nat) (s : State) : s.SameBut [.mem, .events] (storeUp f n s) :=
  forUpTo_sameBut (fun _ t => memWrite_sameBut _ _ t) n s

theorem storeUp_wf (f : Nat → State → Byte) (n : Nat) {s : State} (h : s.mem.wf = true) : (storeUp f n s).mem.wf = true :=
  forUpTo_induct (P := fun _ t => t.mem.wf = true) h (fun _ _ ht => memWrite_wf ht _ _) n

/-- A byte away from the `n` addresses stored to, each wrapped, is as before, whatever the form of memory (R160, R161). -/
theorem peek_storeUp_of_ne (f : Nat → State → Byte) {n a : Nat} {s : State}
    (ha : ∀ k, k < n → a % 4096 ≠ indexAddr s k % 4096) : peek (storeUp f n s) a = peek s a := by
  refine (forUpTo_induct
    (P := fun m t => t.i = s.i ∧ ((∀ k, k < m → a % 4096 ≠ indexAddr s k % 4096) → peek t a = peek s a))
    ⟨rfl, fun _ => rfl⟩ (fun m t ih => ?_) n).2 ha
  obtain ⟨hi, hpeek⟩ := ih
  refine ⟨hi, fun hm => ?_⟩
  have hne : a % Config.memSize ≠ indexAddr t m % Config.memSize := by
    rw [indexAddr, hi]
    exact hm m (by omega)
  exact (peek_memWrite_of_ne hne _ t).trans (hpeek fun k hk => hm k (by omega))

/-! ### Call and return, once for all that is proved of them -/

theorem execCall_of_full (addr : Addr) {s : State} (h : s.sp = 16#8) :
    execCall addr s = .next (raiseFault .stackOverflow s) := if_pos h

theorem execCall_of_lt (addr : Addr) {s : State} (h : s.sp.toNat < 16) :
    execCall addr s = .next (setPc (addrWord addr) (pushWord s.pc s h)) := by
  have hne : s.sp ≠ 16#8 := by rintro he; simp [he] at h
  rw [execCall, if_neg hne, dif_pos h]

theorem execCall_of_gt (addr : Addr) {s : State} (h : 16 < s.sp.toNat) :
    execCall addr s = .refused .stackPointerOutOfRange := by
  have hne : s.sp ≠ 16#8 := by rintro he; simp [he] at h
  rw [execCall, if_neg hne, dif_neg (by omega)]

theorem execRet_of_empty {s : State} (h : s.sp = 0#8) : execRet s = .next (raiseFault .stackUnderflow s) := if_pos h

theorem execRet_of_pos {s : State} (h : 0 < s.sp.toNat ∧ s.sp.toNat ≤ 16) :
    execRet s = .next (setPc (popWord s h).1 (popWord s h).2) := by
  have hne : s.sp ≠ 0#8 := by rintro he; simp [he] at h
  rw [execRet, if_neg hne, dif_pos h]

theorem execRet_of_gt {s : State} (h : 16 < s.sp.toNat) : execRet s = .refused .stackPointerOutOfRange := by
  have hne : s.sp ≠ 0#8 := by rintro he; simp [he] at h
  rw [execRet, if_neg hne, dif_neg (by omega)]

/-- The three cases of `SP` a call tells apart (R103, log entry 11). -/
theorem callSp_cases (s : State) : s.sp = 16#8 ∨ s.sp.toNat < 16 ∨ 16 < s.sp.toNat := by
  rcases Nat.lt_trichotomy s.sp.toNat 16 with h | h | h
  · exact .inr (.inl h)
  · exact .inl (BitVec.eq_of_toNat_eq h)
  · exact .inr (.inr h)

/-- The three cases of `SP` a return tells apart (R101, log entry 11). -/
theorem retSp_cases (s : State) : s.sp = 0#8 ∨ (0 < s.sp.toNat ∧ s.sp.toNat ≤ 16) ∨ 16 < s.sp.toNat := by
  rcases Nat.eq_zero_or_pos s.sp.toNat with h | h
  · exact .inl (BitVec.eq_of_toNat_eq h)
  · exact .inr ((Nat.lt_or_ge 16 s.sp.toNat).symm.imp_left fun hle => ⟨h, hle⟩)

/-- What a completed call did: a full stack raised the overflow, any other had the advanced `PC` pushed (R103, R183). -/
theorem execCall_cases {addr : Addr} {s t : State} (h : execCall addr s = .next t) :
    (s.sp = 16#8 ∧ t = raiseFault .stackOverflow s) ∨
      ∃ hsp : s.sp.toNat < 16, t = setPc (addrWord addr) (pushWord s.pc s hsp) := by
  obtain hsp | hsp | hsp := callSp_cases s
  · rw [execCall_of_full addr hsp] at h; cases h; exact .inl ⟨hsp, rfl⟩
  · rw [execCall_of_lt addr hsp] at h; cases h; exact .inr ⟨hsp, rfl⟩
  · rw [execCall_of_gt addr hsp] at h; cases h

/-- What a completed return did: an empty stack raised the underflow, any other gave its top entry to `PC` (R101, R184). -/
theorem execRet_cases {s t : State} (h : execRet s = .next t) :
    (s.sp = 0#8 ∧ t = raiseFault .stackUnderflow s) ∨
      ∃ hsp : 0 < s.sp.toNat ∧ s.sp.toNat ≤ 16, t = setPc (popWord s hsp).1 (popWord s hsp).2 := by
  obtain hsp | hsp | hsp := retSp_cases s
  · rw [execRet_of_empty hsp] at h; cases h; exact .inl ⟨hsp, rfl⟩
  · rw [execRet_of_pos hsp] at h; cases h; exact .inr ⟨hsp, rfl⟩
  · rw [execRet_of_gt hsp] at h; cases h

theorem execCall_sameBut {addr : Addr} {s t : State} (h : execCall addr s = .next t) :
    s.SameBut [.stack, .sp, .pc, .fault, .events] t := by
  obtain ⟨-, rfl⟩ | ⟨hsp, rfl⟩ := execCall_cases h
  · exact sameBut_mono (by decide) (raiseFault_sameBut _ s)
  · exact sameBut_seq (pushWord_sameBut s.pc s hsp) (setPc_sameBut _ _) (by decide)

theorem execRet_sameBut {s t : State} (h : execRet s = .next t) : s.SameBut [.sp, .pc, .fault, .events] t := by
  obtain ⟨-, rfl⟩ | ⟨hsp, rfl⟩ := execRet_cases h
  · exact sameBut_mono (by decide) (raiseFault_sameBut _ s)
  · exact sameBut_seq (popWord_sameBut s hsp) (setPc_sameBut _ _) (by decide)

/-! ### The frame of every instruction -/

/-- Nothing changes but the parts Table R33 and, for the extension, rules R152 to R162 name. -/
theorem exec_sameBut {i : Instr} {s t : State} (h : exec i s = .next t) : s.SameBut (writes i) t := by
  cases i with
  | call addr => exact execCall_sameBut h
  | ret => exact execRet_sameBut h
  | cls => cases h; exact emit_sameBut _ s
  | jp addr | jpV0 addr => cases h; exact setPc_sameBut _ s
  | seImm | sneImm | seReg | sneReg => cases h; exact skipIf_sameBut _ s
  | ldImm | addImm | ldReg | orReg | andReg | xorReg => cases h; exact writeV_sameBut _ _ s
  | addReg | subReg | subnReg => cases h; exact writeResultThenFlag_sameBut _ _ _ s
  | shr | shl => cases h; exact writeFlagThenShift_sameBut _ _ _ s
  | ldI | addI | ldF => cases h; exact setI_sameBut _ s
  | rnd => cases h; exact sameBut_seq (randomByte_sameBut s) (writeV_sameBut _ _ _) (by simp [writes])
  | drw x y n =>
    cases h
    have rows : (writeVF 0#8 s).SameBut [.v, .sources, .events]
        (forUpTo n.toNat (drawRow (readV x s) (readV y s)) (writeVF 0#8 s)) := forUpTo_sameBut (drawRow_sameBut _ _) _ _
    have drawn := sameBut_seq (m := [.v, .sources, .events]) (writeV_sameBut 0xF#4 0#8 s) rows (by decide)
    exact sameBut_seq drawn (emit_sameBut _ _) (by simp [writes])
  | skp | sknp => cases h; exact sameBut_seq (keyPressed_sameBut _ s) (skipIf_sameBut _ _) (by simp [writes])
  | ldVxDt => cases h; exact sameBut_seq (timerReadDelay_sameBut s) (writeV_sameBut _ _ _) (by simp [writes])
  | ldVxK => cases h; exact sameBut_seq (waitKey_sameBut s) (takeKey_sameBut _ _ _) (by simp [writes])
  | ldDtVx | ldStVx => cases h; simp [State.SameBut, writes]
  | ldB | stRegs => cases h; exact storeUp_sameBut _ _ s
  | ldRegs => cases h; exact forUpTo_sameBut loadRow_sameBut _ s

/-- Of the `V` registers only those the tables name change. -/
theorem exec_readV {i : Instr} {s t : State} (h : exec i s = .next t) {z : Nibble} (hz : writesV i z = false) :
    readV z t = readV z s := by
  cases i with
  | ldImm | addImm | ldReg | orReg | andReg | xorReg =>
    cases h
    exact readV_writeV_of_ne (by simpa [writesV] using hz) _ s
  | rnd | ldVxDt =>
    cases h
    exact readV_writeV_of_ne (by simpa [writesV] using hz) _ _
  | addReg | subReg | subnReg =>
    cases h
    rw [writesV, Bool.or_eq_false_iff, beq_eq_false_iff_ne, beq_eq_false_iff_ne] at hz
    rw [readV_writeResultThenFlag, if_neg hz.2, if_neg hz.1]
  | shr | shl =>
    cases h
    rw [writesV, Bool.or_eq_false_iff, beq_eq_false_iff_ne, beq_eq_false_iff_ne] at hz
    rw [readV_writeFlagThenShift, if_neg hz.1, if_neg hz.2]
  | drw x y n =>
    cases h
    have hne : z ≠ 0xF#4 := by simpa [writesV] using hz
    exact forUpTo_induct (P := fun _ u => readV z u = readV z s) (readV_writeV_of_ne hne 0#8 s)
      (fun k u hu => (readV_drawRow_of_ne hne _ _ k u).trans hu) n.toNat
  | ldVxK x =>
    cases h
    rcases (waitKey s).1 with _ | k
    · rfl
    · exact readV_writeV_of_ne (by simpa [writesV] using hz) _ _
  | ldRegs x =>
    cases h
    exact readV_forUpTo_loadRow (by simpa [writesV] using hz) s
  | _ => exact (exec_sameBut h).readV_eq (by simp [writes]) z

/-- Of memory only the bytes stored change, at the wrapped addresses from `I` up (R160, R161). -/
theorem exec_peek {i : Instr} {s t : State} (h : exec i s = .next t) {a : Nat}
    (ha : ∀ k, k < storedBytes i → a % 4096 ≠ indexAddr s k % 4096) : peek t a = peek s a := by
  cases i with
  | ldB | stRegs => cases h; exact peek_storeUp_of_ne _ ha
  | _ => exact (exec_sameBut h).peek_eq (by simp [writes]) a

/-- Settles O12: the frame, the `V` registers and the bytes of memory, each by its own lemma over the instructions. -/
theorem everyInstructionChangesOnlyWhatItWrites : Obligations.EveryInstructionChangesOnlyWhatItWrites := by
  intro i s t h
  exact ⟨exec_sameBut h, fun _ hz => exec_readV h hz, fun _ ha => exec_peek h ha⟩

end Sys2Proof.Machine
end

section
/-! Who writes `I`, `SP`, `Stack`, `FAULT` and memory, read off the frames; from that the invariant, the latch and the stack entry. -/

namespace Sys2Proof.Machine

/-! ### Which instructions write a part -/

theorem i_mem_writes {i : Instr} :
    .i ∈ writes i ↔ (∃ addr, i = .ldI addr) ∨ (∃ x, i = .addI x) ∨ ∃ x, i = .ldF x := by
  cases i <;> simp [writes]

theorem sp_mem_writes {i : Instr} : .sp ∈ writes i ↔ i = .ret ∨ ∃ addr, i = .call addr := by
  cases i <;> simp [writes]

theorem stack_mem_writes {i : Instr} : .stack ∈ writes i ↔ ∃ addr, i = .call addr := by
  cases i <;> simp [writes]

theorem fault_mem_writes {i : Instr} : .fault ∈ writes i ↔ i = .ret ∨ ∃ addr, i = .call addr := by
  cases i <;> simp [writes]

theorem mem_mem_writes {i : Instr} : .mem ∈ writes i ↔ (∃ x, i = .ldB x) ∨ ∃ x, i = .stRegs x := by
  cases i <;> simp [writes]

/-! ### The invariant is kept by every instruction -/

theorem exec_mem_wf {i : Instr} {s t : State} (hs : s.mem.wf = true) (h : exec i s = .next t) : t.mem.wf = true := by
  by_cases hw : .mem ∈ writes i
  · obtain ⟨x, rfl⟩ | ⟨x, rfl⟩ := mem_mem_writes.1 hw
    · cases h; exact storeUp_wf _ _ hs
    · cases h; exact storeUp_wf _ _ hs
  · rwa [(exec_sameBut h).mem_eq hw]

theorem execCall_sp_le {addr : Addr} {s t : State} (hs : s.sp.toNat ≤ 16) (h : execCall addr s = .next t) :
    t.sp.toNat ≤ 16 := by
  obtain ⟨-, rfl⟩ | ⟨hsp, rfl⟩ := execCall_cases h
  · exact hs
  · rw [setPc_sp, pushWord_sp, BitVec.toNat_add, BitVec.toNat_ofNat]
    omega

theorem execRet_sp_le {s t : State} (hs : s.sp.toNat ≤ 16) (h : execRet s = .next t) : t.sp.toNat ≤ 16 := by
  obtain ⟨-, rfl⟩ | ⟨hsp, rfl⟩ := execRet_cases h
  · exact hs
  · rw [setPc_sp, popWord_sp, BitVec.toNat_sub, BitVec.toNat_ofNat]
    omega

theorem exec_sp_le {i : Instr} {s t : State} (hs : s.sp.toNat ≤ 16) (h : exec i s = .next t) : t.sp.toNat ≤ 16 := by
  by_cases hw : .sp ∈ writes i
  · obtain rfl | ⟨addr, rfl⟩ := sp_mem_writes.1 hw
    · exact execRet_sp_le hs h
    · exact execCall_sp_le hs h
  · rwa [(exec_sameBut h).sp_eq hw]

/-- The baseline writes `I` only with a 12-bit address (R22, R132). -/
theorem exec_i_le {i : Instr} {s t : State} (hi : i.isExtension = false) (hs : s.i.toNat ≤ 0xFFF)
    (h : exec i s = .next t) : t.i.toNat ≤ 0xFFF := by
  by_cases hw : .i ∈ writes i
  · obtain ⟨addr, rfl⟩ | ⟨x, rfl⟩ | ⟨x, rfl⟩ := i_mem_writes.1 hw
    · cases h
      rw [setI_i, addrWord, BitVec.toNat_setWidth]
      have := addr.isLt
      omega
    · cases hi
    · cases hi
  · rwa [(exec_sameBut h).i_eq hw]

/-! ### Without the switch the decoder gives no instruction of the extension (R150) -/

theorem decodeAlu_all_baseline (op : Word) : (decodeAlu op).all (fun i => !i.isExtension) = true := by
  simp only [decodeAlu, apply_ite (Option.all _), Option.all_some, Option.all_none, Instr.isExtension, Bool.not_false, ite_self]

theorem selectRow_all_baseline (op : Word) : (selectRow false op).all (fun i => !i.isExtension) = true := by
  simp only [selectRow, Bool.false_eq_true, if_false, apply_ite (Option.all _), Option.all_some, Option.all_none,
    decodeAlu_all_baseline]
  simp only [Instr.isExtension, Bool.not_false, ite_self]

theorem decodeWord_baseline {op : Word} {i : Instr} (h : decodeWord false op = .ok i) : i.isExtension = false := by
  have hall := selectRow_all_baseline op
  rwa [decodeWord_ok.1 h, Option.all_some, Bool.not_eq_true'] at hall

/-! ### The invariant -/

theorem exec_keeps_inv {i : Instr} {s t : State} (hi : s.extEF = false → i.isExtension = false) (hs : s.Inv)
    (h : exec i s = .next t) : t.Inv := by
  obtain ⟨hmem, hsp, hidx⟩ := hs
  refine ⟨exec_mem_wf hmem h, exec_sp_le hsp h, fun hext => ?_⟩
  rw [(exec_sameBut h).extEF_eq] at hext
  exact exec_i_le (hi hext) (hidx hext) h

/-- Settles O51, from the case distinction on a completed step: an instruction keeps the invariant, a notice changes only
the history. -/
theorem stepKeepsInv : Obligations.StepKeepsInv := by
  intro s t hs h
  obtain ⟨-, ⟨i, hd, hx⟩ | ⟨e, -, rfl⟩⟩ := step_cases h
  · have hi : (fetchAdvance s).extEF = false → i.isExtension = false := fun hext =>
      decodeWord_baseline (op := fetchWord s) (by rw [← hd, ← hext, fetchAdvance_extEF])
    exact ⟨exec_keeps_inv hi hs hx, (exec_sameBut hx).extEF_eq⟩
  · exact ⟨hs, rfl⟩

/-! ### The stack entries -/

/-- A completed call changes no entry but the one at `SP` (R103). -/
theorem execCall_stack_of_ne {addr : Addr} {s t : State} {k : Nat} (hk : k < 16) (hsp : s.sp.toNat ≠ k)
    (h : execCall addr s = .next t) : t.stack[k] = s.stack[k] := by
  obtain ⟨-, rfl⟩ | ⟨hlt, rfl⟩ := execCall_cases h
  · rfl
  · exact Vector.getElem_set_ne hlt hk hsp

theorem exec_stack_of_ne {i : Instr} {s t : State} {k : Nat} (hk : k < 16)
    (hc : ¬(s.sp.toNat = k ∧ ∃ addr, i = .call addr)) (h : exec i s = .next t) : t.stack[k] = s.stack[k] := by
  by_cases hw : .stack ∈ writes i
  · obtain ⟨addr, rfl⟩ := stack_mem_writes.1 hw
    exact execCall_stack_of_ne hk (fun hsp => hc ⟨hsp, addr, rfl⟩) h
  · rw [(exec_sameBut h).stack_eq hw]

/-- Between two steps only `reset` reaches the Register File (R32, R64). -/
theorem hostAct_registerFile {m : HostMove} (hm : m ≠ .reset) (s : State) : (hostAct m s).registerFile = s.registerFile := by
  cases m with
  | reset => exact absurd rfl hm
  | writeMem a b => rfl
  | setTimer c v => cases c <;> rfl

/-- Settles O54: of the instructions only a call writes a stack entry, that at `SP`; no host move but `reset` writes one. -/
theorem stepKeepsStackEntry : Obligations.StepKeepsStackEntry := by
  refine ⟨fun s t k hk h hc => ?_, fun s m k hk hm => ?_⟩
  · obtain ⟨-, ⟨i, hd, hx⟩ | ⟨e, -, rfl⟩⟩ := step_cases h
    · refine exec_stack_of_ne (s := fetchAdvance s) hk ?_ hx
      rintro ⟨hsp, addr, rfl⟩
      exact hc ⟨hsp, addr, hd⟩
    · rfl
  · have hstack : (hostAct m s).stack = s.stack := congrArg RegisterFile.stack (hostAct_registerFile hm s)
    rw [hstack]

/-! ### The latch -/

theorem exec_fault {i : Instr} {s t : State} (h : exec i s = .next t) :
    t.fault = s.fault ∨
      (t.fault = some .stackOverflow ∧ s.sp = 16#8 ∧ ∃ addr, i = .call addr) ∨
      (t.fault = some .stackUnderflow ∧ s.sp = 0#8 ∧ i = .ret) := by
  by_cases hw : .fault ∈ writes i
  · obtain rfl | ⟨addr, rfl⟩ := fault_mem_writes.1 hw
    · obtain ⟨hsp, rfl⟩ | ⟨_, rfl⟩ := execRet_cases h
      · exact .inr (.inr ⟨rfl, hsp, rfl⟩)
      · exact .inl rfl
    · obtain ⟨hsp, rfl⟩ | ⟨_, rfl⟩ := execCall_cases h
      · exact .inr (.inl ⟨rfl, hsp, addr, rfl⟩)
      · exact .inl rfl
  · exact .inl ((exec_sameBut h).fault_eq hw)

theorem hostAct_fault (m : HostMove) (s : State) : (hostAct m s).fault = if m = .reset then none else s.fault := by
  split
  · next hm => subst hm; rfl
  · next hm => exact congrArg RegisterFile.fault (hostAct_registerFile hm s)

/-- Settles O45: the codes, the two instructions that set the latch of a clear core, and the host. -/
theorem faultLatch : Obligations.FaultLatch := by
  refine ⟨⟨rfl, rfl, rfl⟩, fun s t h => ?_, fun s m => hostAct_fault m s⟩
  obtain ⟨hclear, ⟨i, hd, hx⟩ | ⟨e, -, rfl⟩⟩ := step_cases h
  · refine ⟨hclear, ?_⟩
    obtain hf | ⟨hf, hsp, addr, rfl⟩ | ⟨hf, hsp, rfl⟩ := exec_fault hx
    · exact .inl (hf.trans hclear)
    · exact .inr (.inl ⟨hf, hsp, addr, hd⟩)
    · exact .inr (.inr ⟨hf, hsp, hd⟩)
  · exact ⟨hclear, .inl hclear⟩

end Sys2Proof.Machine
end

section
/-! Reset, the host's moves, the reachable states and the two refusals; and `PC` after every baseline step. -/

namespace Sys2Proof.Machine

/-! ### Reset and the host -/

theorem powerOn_inv {mem0 : Memory} (h : mem0.wf = true) : (State.powerOn mem0).Inv :=
  ⟨h, Nat.zero_le 16, fun _ => Nat.zero_le 0xFFF⟩

/-- Settles O50: every clause is read off the reset values. -/
theorem invAtReset : Obligations.InvAtReset :=
  ⟨powerOn_inv Memory.nil_wf, fun _ h => powerOn_inv h⟩

theorem readV_powerOn (z : Nibble) (mem0 : Memory) : readV z (State.powerOn mem0) = 0x00#8 :=
  Vector.getElem_replicate z.isLt

/-- Settles O46, Table R31 entry by entry. -/
theorem resetValues : Obligations.ResetValues :=
  ⟨rfl, fun mem0 => ⟨fun z => readV_powerOn z mem0, rfl, rfl, rfl, fun _ hk => Vector.getElem_replicate hk, rfl⟩⟩

theorem hostAct_outside (m : HostMove) (s : State) :
    (hostAct m s).extEF = s.extEF ∧ (hostAct m s).events = s.events ∧ (hostAct m s).sources = s.sources := by
  cases m with
  | reset | writeMem a b => exact ⟨rfl, rfl, rfl⟩
  | setTimer c v => cases c <;> exact ⟨rfl, rfl, rfl⟩

/-- Settles O48. -/
theorem hostReachesRegistersOnlyByReset : Obligations.HostReachesRegistersOnlyByReset := fun s m =>
  ⟨fun hm => hostAct_registerFile hm s, hostAct_outside m s⟩

/-- A byte written keeps memory canonical, `reset` puts `SP` and `I` at 0, and the counters are no part of the invariant. -/
theorem hostAct_keeps_inv (m : HostMove) {s : State} (h : s.Inv) : (hostAct m s).Inv := by
  obtain ⟨hmem, hsp, hidx⟩ := h
  cases m with
  | reset => exact ⟨hmem, Nat.zero_le 16, fun _ => Nat.zero_le 0xFFF⟩
  | writeMem a b => exact ⟨poke_wf hmem a.toNat b, hsp, hidx⟩
  | setTimer c v => cases c <;> exact ⟨hmem, hsp, hidx⟩

/-! ### The refusals -/

/-- Settles O20. -/
theorem stackPointerOutOfRangeIsRefused : Obligations.StackPointerOutOfRangeIsRefused := fun addr _ hsp =>
  ⟨execCall_of_gt addr hsp, execRet_of_gt hsp⟩

theorem execCall_refused {addr : Addr} {s : State} {r : Refusal} (h : execCall addr s = .refused r) : 16 < s.sp.toNat := by
  obtain hsp | hsp | hsp := callSp_cases s
  · rw [execCall_of_full addr hsp] at h; cases h
  · rw [execCall_of_lt addr hsp] at h; cases h
  · exact hsp

theorem execRet_refused {s : State} {r : Refusal} (h : execRet s = .refused r) : 16 < s.sp.toNat := by
  obtain hsp | hsp | hsp := retSp_cases s
  · rw [execRet_of_empty hsp] at h; cases h
  · rw [execRet_of_pos hsp] at h; cases h
  · exact hsp

/-- An instruction is refused in the states with `SP` above 16 only (R27, log entry 11). -/
theorem exec_refused {i : Instr} {s : State} {r : Refusal} (h : exec i s = .refused r) : 16 < s.sp.toNat := by
  cases i with
  | call addr => exact execCall_refused h
  | ret => exact execRet_refused h
  | _ => cases h

/-- A step that is refused stopped at an instruction. -/
theorem step_refused {s : State} {r : Refusal} (h : step s = .refused r) : ∃ i, exec i (fetchAdvance s) = .refused r := by
  simp only [step, cycle, runFetched] at h
  rcases hf : s.fault with _ | c
  · rw [hf] at h
    rcases hd : decodeWord s.extEF (fetchWord s) with e | i
    · rw [hd] at h; cases h
    · rw [hd] at h; exact ⟨i, h⟩
  · rw [hf] at h; cases h

theorem step_not_refused {s : State} (h : s.Inv) (r : Refusal) : step s ≠ .refused r := by
  intro hr
  obtain ⟨-, hsp, -⟩ := h
  obtain ⟨i, hi⟩ := step_refused hr
  have hgt : 16 < s.sp.toNat := exec_refused (s := fetchAdvance s) hi
  omega

/-! ### The reachable states -/

/-- The induction over steps and host moves, once: the switch stays and the invariant holds. -/
theorem Reachable.extEF_and_inv {ext : Bool} {s : State} (h : Reachable ext s) : s.extEF = ext ∧ s.Inv := by
  induction h with
  | start mem0 src hmem => exact ⟨rfl, hmem, Nat.zero_le 16, fun _ => Nat.zero_le 0xFFF⟩
  | step s t _ hs ih =>
    obtain ⟨hext, hinv⟩ := ih
    obtain ⟨hinv', hext'⟩ := stepKeepsInv s t hinv hs
    exact ⟨hext'.trans hext, hinv'⟩
  | host s m _ ih =>
    obtain ⟨hext, hinv⟩ := ih
    obtain ⟨hext', -⟩ := hostAct_outside m s
    exact ⟨hext'.trans hext, hostAct_keeps_inv m hinv⟩

/-- Settles O52, from the invariant of every reachable state. -/
theorem reachableStatesHaveInv : Obligations.ReachableStatesHaveInv := by
  intro ext s h
  obtain ⟨hext, hinv⟩ := h.extEF_and_inv
  obtain ⟨hmem, hsp, hidx⟩ := hinv
  exact ⟨hext, hmem, hsp, fun he => hidx (hext.trans he), step_not_refused ⟨hmem, hsp, hidx⟩⟩

/-! ### `PC` -/

theorem add_two_add_two (w : Word) : w + 2#16 + 2#16 = w + 4#16 := by
  rw [BitVec.add_assoc]; rfl

/-- `PC` of a skip after the fetch: 4 past the instruction or 2 (R24, R109). -/
theorem skipIf_fetchAdvance_pc (c : Bool) (s : State) :
    (skipIf c (fetchAdvance s)).pc = if c then s.pc + 4#16 else s.pc + 2#16 := by
  rw [skipIf_eq, setPc_pc, fetchAdvance_pc, add_two_add_two]

theorem execCall_pc {addr : Addr} {s t : State} (h : execCall addr s = .next t) :
    t.pc = if s.sp = 16#8 then s.pc else addr.setWidth 16 := by
  obtain ⟨hsp, rfl⟩ | ⟨hsp, rfl⟩ := execCall_cases h
  · rw [if_pos hsp, raiseFault_pc]
  · have hne : s.sp ≠ 16#8 := by rintro he; simp [he] at hsp
    rw [if_neg hne]
    rfl

theorem execRet_pc {s t : State} (h : execRet s = .next t) :
    t.pc = if s.sp = 0#8 then s.pc else s.stack[s.sp.toNat - 1]?.getD 0#16 := by
  obtain ⟨hsp, rfl⟩ | ⟨hsp, rfl⟩ := execRet_cases h
  · rw [if_pos hsp, raiseFault_pc]
  · have hne : s.sp ≠ 0#8 := by rintro he; simp [he] at hsp
    have hlt : s.sp.toNat - 1 < 16 := by omega
    rw [if_neg hne, setPc_pc, Vector.getElem?_eq_getElem hlt]; rfl

/-- Settles O11: the control transfers by their own lemmas, every other instruction by its frame, which leaves `PC` out. -/
theorem pcOfEveryStep : Obligations.PcOfEveryStep := by
  intro s t _ hext h
  obtain ⟨-, ⟨i, hd, hx⟩ | ⟨e, hd, rfl⟩⟩ := step_cases h
  · rw [hext] at hd
    have hbase := decodeWord_baseline hd
    rw [hd]
    cases i with
    | jp | jpV0 => cases hx; rfl
    | call addr => exact execCall_pc hx
    | ret => exact execRet_pc hx
    | seImm | sneImm | seReg | sneReg => cases hx; simp [skipIf_fetchAdvance_pc]
    | skp | sknp | ldVxK => cases hbase
    | _ => exact (exec_sameBut hx).pc_eq (by simp [writes])
  · rw [hext] at hd
    rw [hd]
    rfl

end Sys2Proof.Machine
end

section
/-! Isolation: states that agree on the Register File, memory and the answer sources are told apart by no instruction but the timer
read (R29, R30, R98). -/

namespace Sys2Proof.Machine

/-- Agreement on what an instruction can see: the Register File, memory and the answer sources. -/
def State.Agree (s s' : State) : Prop := s.registerFile = s'.registerFile ∧ s.mem = s'.mem ∧ s.sources = s'.sources

/-- `s` with the parts no instruction but the timer read looks at taken from `o`: the switch, the counters and the history. -/
def State.withUnseen (s o : State) : State :=
  { s with extEF := o.extEF, delay := o.delay, sound := o.sound, events := o.events }

/-- States agree exactly when they differ in the unseen parts alone; what two such states do alike is then alike by computation. -/
theorem agree_iff {s s' : State} : s.Agree s' ↔ ∃ o, s' = s.withUnseen o := by
  constructor
  · rintro ⟨hreg, hmem, hsrc⟩
    refine ⟨s', ?_⟩
    cases s
    cases s'
    cases hreg
    cases hmem
    cases hsrc
    rfl
  · rintro ⟨o, rfl⟩
    exact ⟨rfl, rfl, rfl⟩

/-! ### Agreement is kept by the operations that branch or repeat -/

section
variable {s s' : State}

theorem State.Agree.skipIf (c : Bool) (h : s.Agree s') : (skipIf c s).Agree (skipIf c s') := by
  obtain ⟨o, rfl⟩ := agree_iff.1 h
  cases c <;> exact ⟨rfl, rfl, rfl⟩

theorem State.Agree.takeKey (x : Nibble) (key : Option Nibble) (h : s.Agree s') :
    (takeKey x key s).Agree (takeKey x key s') := by
  obtain ⟨o, rfl⟩ := agree_iff.1 h
  cases key <;> exact ⟨rfl, rfl, rfl⟩

theorem State.Agree.forUpTo {body : Nat → State → State}
    (hb : ∀ k (t t' : State), t.Agree t' → (body k t).Agree (body k t'))
    (n : Nat) (h : s.Agree s') : (forUpTo n body s).Agree (forUpTo n body s') := by
  induction n with
  | zero => exact h
  | succ n ih => rw [forUpTo_succ, forUpTo_succ]; exact hb n _ _ ih

/-- The same answer of the Display for both: it comes from the sources (log entry 10). -/
theorem State.Agree.drawRow (xp yp : Byte) (r : Nat) (h : s.Agree s') : (drawRow xp yp r s).Agree (drawRow xp yp r s') := by
  obtain ⟨o, rfl⟩ := agree_iff.1 h
  have hsrc : (s.withUnseen o).sources = s.sources := rfl
  rw [drawRow_eq, drawRow_eq, hsrc]
  split <;> exact ⟨rfl, rfl, rfl⟩

theorem State.Agree.loadRow (k : Nat) (h : s.Agree s') : (loadRow k s).Agree (loadRow k s') := by
  obtain ⟨o, rfl⟩ := agree_iff.1 h
  exact ⟨rfl, rfl, rfl⟩

theorem State.Agree.storeUp {f : Nat → State → Byte} (hf : ∀ k (t o : State), f k (t.withUnseen o) = f k t) (n : Nat)
    (h : s.Agree s') : (storeUp f n s).Agree (storeUp f n s') := by
  refine State.Agree.forUpTo (fun k t t' ht => ?_) n h
  obtain ⟨o, rfl⟩ := agree_iff.1 ht
  rw [hf]
  exact ⟨rfl, rfl, rfl⟩

theorem State.Agree.execCall {addr : Addr} {t : State} (h : s.Agree s') (hx : execCall addr s = .next t) :
    ∃ t', execCall addr s' = .next t' ∧ t.Agree t' := by
  obtain ⟨o, rfl⟩ := agree_iff.1 h
  obtain ⟨hsp, rfl⟩ | ⟨hsp, rfl⟩ := execCall_cases hx
  · exact ⟨_, execCall_of_full addr hsp, rfl, rfl, rfl⟩
  · exact ⟨_, execCall_of_lt (s := s.withUnseen o) addr hsp, rfl, rfl, rfl⟩

theorem State.Agree.execRet {t : State} (h : s.Agree s') (hx : execRet s = .next t) :
    ∃ t', execRet s' = .next t' ∧ t.Agree t' := by
  obtain ⟨o, rfl⟩ := agree_iff.1 h
  obtain ⟨hsp, rfl⟩ | ⟨hsp, rfl⟩ := execRet_cases hx
  · exact ⟨_, execRet_of_empty hsp, rfl, rfl, rfl⟩
  · exact ⟨_, execRet_of_pos (s := s.withUnseen o) hsp, rfl, rfl, rfl⟩

end

/-! ### Every instruction but the timer read keeps agreement -/

theorem State.Agree.exec {i : Instr} {s s' t : State} (hi : ∀ x, i ≠ .ldVxDt x) (h : s.Agree s')
    (hx : exec i s = .next t) : ∃ t', exec i s' = .next t' ∧ t.Agree t' := by
  obtain ⟨o, rfl⟩ := agree_iff.1 h
  cases i with
  | ldVxDt x => exact absurd rfl (hi x)
  | call addr => exact h.execCall hx
  | ret => exact h.execRet hx
  | seImm | sneImm | seReg | sneReg => cases hx; exact ⟨_, rfl, h.skipIf _⟩
  | skp | sknp => cases hx; exact ⟨_, rfl, State.Agree.skipIf _ ⟨rfl, rfl, rfl⟩⟩
  | ldVxK => cases hx; exact ⟨_, rfl, State.Agree.takeKey _ _ ⟨rfl, rfl, rfl⟩⟩
  | drw x y n =>
    cases hx
    have hstart : (writeVF 0#8 s).Agree (writeVF 0#8 (s.withUnseen o)) := ⟨rfl, rfl, rfl⟩
    exact ⟨_, rfl, State.Agree.forUpTo (fun k _ _ => State.Agree.drawRow (readV x s) (readV y s) k) n.toNat hstart⟩
  | ldB | stRegs => cases hx; exact ⟨_, rfl, State.Agree.storeUp (fun _ _ _ => rfl) _ h⟩
  | ldRegs => cases hx; exact ⟨_, rfl, State.Agree.forUpTo (fun k _ _ => State.Agree.loadRow k) _ h⟩
  | _ => cases hx; exact ⟨_, rfl, rfl, rfl, rfl⟩

/-- Settles O13: agreement is kept by every instruction but the timer read. -/
theorem effectDependsOnlyOnCoreMemoryAndAnswers : Obligations.EffectDependsOnlyOnCoreMemoryAndAnswers := by
  intro i s s' t hi hreg hmem hsrc hx
  have hagree : s.Agree s' := ⟨hreg, hmem, hsrc⟩
  obtain ⟨t', hx', hreg', hmem', hsrc'⟩ := hagree.exec hi hx
  exact ⟨t', hx', hreg'.symm, hmem'.symm, hsrc'.symm⟩

end Sys2Proof.Machine
end

section
/-! Memory as the host and the core reach it: a byte written is the byte read (spec/20_memory.md R42 to R44, R50, R53), and the program
loader (R47, R214). -/

namespace Sys2Proof.Machine

/-! ### Bytes and words -/

/-- Settles O14: the two bytes of an assembled word are the bytes it was assembled from. -/
theorem addressWrapAndByteOrder : Obligations.AddressWrapAndByteOrder := fun _ _ =>
  ⟨rfl, highByte_wordOfBytes _ _, lowByte_wordOfBytes _ _, lowByte_wordOfBytes _ _⟩

/-- Writing the byte that is there already changes nothing: the two canonical memories read alike. -/
theorem Memory.write_read_self {m : Memory} {a : Nat} (hm : m.wf = true) (ha : a < Config.memSize) :
    m.write a (m.read a) = m := by
  refine Memory.eq_of_read_eq (lo := 0) (Memory.write_wf hm ha) hm fun c => ?_
  rw [Memory.read_write (lo := 0) hm]
  split
  · next hc => rw [hc]
  · rfl

/-- Settles O15. -/
theorem byteWriteThenRead : Obligations.ByteWriteThenRead := by
  intro s a c b hs
  refine ⟨peek_memWrite hs a c b, memWrite_wf hs a b, ?_⟩
  rintro rfl
  exact Memory.write_read_self hs (Nat.mod_lt a (by decide))

/-! ### The baseline core never writes, and a host write is seen at once (R53) -/

theorem exec_mem_of_baseline {i : Instr} {s t : State} (hi : i.isExtension = false) (h : exec i s = .next t) :
    t.mem = s.mem := by
  refine (exec_sameBut h).mem_eq fun hw => ?_
  obtain ⟨x, rfl⟩ | ⟨x, rfl⟩ := mem_mem_writes.1 hw <;> cases hi

theorem step_mem_of_baseline {s t : State} (hext : s.extEF = false) (h : step s = .next t) : t.mem = s.mem := by
  obtain ⟨-, ⟨i, hd, hx⟩ | ⟨e, -, rfl⟩⟩ := step_cases h
  · rw [hext] at hd
    exact exec_mem_of_baseline (s := fetchAdvance s) (decodeWord_baseline hd) hx
  · rfl

/-- A byte of memory after a host write, at the address it wraps to. -/
theorem peek_hostAct_writeMem {s : State} (hs : s.mem.wf = true) (a : Addr) (b : Byte) (c : Nat) :
    peek (hostAct (.writeMem a b) s) c = if c % 4096 = a.toNat then b else peek s c := by
  have ha : a.toNat % Config.memSize = a.toNat := Nat.mod_eq_of_lt a.isLt
  rw [hostAct, peek_poke hs, ha]
  rfl

/-- Settles O16: no baseline instruction writes memory, and both reads take the byte memory holds now. -/
theorem baselineNeverWritesMemory : Obligations.BaselineNeverWritesMemory := by
  refine ⟨fun s t => step_mem_of_baseline, fun s a c b hs => ⟨peek_hostAct_writeMem hs a b c, ?_⟩⟩
  exact congrArg₂ wordOfBytes (peek_hostAct_writeMem hs a b _) (peek_hostAct_writeMem hs a b _)

/-! ### The program loader -/

theorem placeBytes_wf (bs : List Byte) (a : Nat) {s : State} (hs : s.mem.wf = true) : (placeBytes a bs s).mem.wf = true := by
  induction bs generalizing a s with
  | nil => exact hs
  | cons b bs ih => exact ih (a + 1) (poke_wf hs a b)

/-- A byte away from the addresses of the program is as before, whatever the form of memory. -/
theorem peek_placeBytes_of_ne {bs : List Byte} {a c : Nat} {s : State}
    (hc : ∀ k, k < bs.length → c % 4096 ≠ (a + k) % 4096) : peek (placeBytes a bs s) c = peek s c := by
  induction bs generalizing a s with
  | nil => rfl
  | cons b bs ih =>
    have hhead : c % Config.memSize ≠ a % Config.memSize := hc 0 (Nat.zero_lt_succ _)
    have htail : ∀ k, k < bs.length → c % 4096 ≠ (a + 1 + k) % 4096 := fun k hk => by
      rw [Nat.add_right_comm]
      exact hc (k + 1) (Nat.succ_lt_succ hk)
    exact (ih htail).trans (Memory.read_write_of_ne hhead b)

/-- Of at most 4096 bytes none is overwritten by a later one, so each lies at its place. -/
theorem peek_placeBytes {bs : List Byte} {a k : Nat} {s : State} (hs : s.mem.wf = true) (hlen : bs.length ≤ 4096)
    (hk : k < bs.length) : peek (placeBytes a bs s) (a + k) = bs[k] := by
  induction bs generalizing a k s with
  | nil => cases hk
  | cons b bs ih =>
    rw [List.length_cons] at hlen hk
    cases k with
    | zero =>
      have hlater : peek (placeBytes (a + 1) bs (poke a b s)) a = peek (poke a b s) a :=
        peek_placeBytes_of_ne fun j hj => by omega
      exact hlater.trans ((peek_poke hs a a b).trans (if_pos rfl))
    | succ k =>
      have hrest := ih (a := a + 1) (k := k) (poke_wf hs a b) (by omega) (by omega)
      rwa [Nat.add_right_comm] at hrest

/-- Loading changes memory alone. -/
theorem placeBytes_with_mem (bs : List Byte) (a : Nat) (s : State) : { placeBytes a bs s with mem := s.mem } = s := by
  induction bs generalizing a s with
  | nil => rfl
  | cons b bs ih => exact congrArg (fun t : State => { t with mem := s.mem }) (ih (a + 1) (poke a b s))

/-- Settles O49. -/
theorem programIsLoadedAt200 : Obligations.ProgramIsLoadedAt200 := fun bytes s hs hlen =>
  ⟨fun _ hk => peek_placeBytes hs hlen hk, fun _ hc => peek_placeBytes_of_ne hc, placeBytes_wf bytes _ hs,
    placeBytes_with_mem bytes _ s⟩

end Sys2Proof.Machine
end

section
/-! The reference display, pixel by pixel (spec/20_memory.md R56, R57). -/

namespace Sys2Proof.Machine

/-- Setting the pixels of a list one after the other: a pixel is set at the end when it was before or one of them is it. -/
theorem getLsbD_foldl_light (lit : Nat → Bool) (pos : Nat → Nat) {px : Nat} (hpx : px < 64) (ks : List Nat) (m : BitVec 64) :
    (ks.foldl (fun m k => if lit k then m ||| BitVec.twoPow 64 (pos k) else m) m).getLsbD px =
      (m.getLsbD px || ks.any (fun k => lit k && decide (pos k = px))) := by
  induction ks generalizing m with
  | nil => simp
  | cons k ks ih =>
    rw [List.foldl_cons, ih, List.any_cons, ← Bool.or_assoc]
    cases lit k with
    | false => simp
    | true =>
      have hbit : (decide (pos k < 64) && decide (pos k = px)) = decide (pos k = px) := by
        rw [← Bool.decide_and, decide_eq_decide]
        omega
      rw [if_pos rfl, BitVec.getLsbD_or, BitVec.getLsbD_twoPow, hbit, Bool.true_and]

/-- The pixels a sprite byte lights in its row. -/
theorem RefDisplay.getLsbD_rowMask (xp b : Byte) {px : Nat} (hpx : px < 64) :
    (RefDisplay.rowMask xp b).getLsbD px =
      (List.range 8).any (fun k => b.getLsbD (7 - k) && decide ((xp.toNat + k) % 64 = px)) := by
  rw [RefDisplay.rowMask, getLsbD_foldl_light (fun k => b.getLsbD (7 - k)) (fun k => (xp.toNat + k) % 64) hpx,
    BitVec.getLsbD_zero, Bool.false_or]

/-- A row after a draw: XORed with the mask when the draw fell on it, else as before. -/
theorem RefDisplay.drawByte_row (xp b : Byte) (yp : Nat) (p : Pixels) (row : Fin 32) :
    (RefDisplay.drawByte xp yp b p).2[row] =
      if row.val = yp % 32 then p[row] ^^^ RefDisplay.rowMask xp b else p[row] := by
  by_cases h : row.val = yp % 32
  · obtain rfl : row = RefDisplay.rowIndex yp := Fin.ext h
    rw [if_pos h]
    exact Vector.getElem_set_self _
  · rw [if_neg h]
    exact Vector.getElem_set_ne (RefDisplay.rowIndex yp).isLt row.isLt (Ne.symm h)

/-- A pixel flips exactly where the draw lights it. -/
theorem RefDisplay.drawByte_pixel (xp b : Byte) (yp : Nat) (p : Pixels) (row : Fin 32) (px : Nat) :
    (RefDisplay.drawByte xp yp b p).2[row].getLsbD px =
      (p[row].getLsbD px != (decide (row.val = yp % 32) && (RefDisplay.rowMask xp b).getLsbD px)) := by
  rw [RefDisplay.drawByte_row]
  split
  · next h => rw [BitVec.getLsbD_xor, decide_eq_true h, Bool.true_and, Bool.bne_eq_xor]
  · next h => rw [decide_eq_false h, Bool.false_and, Bool.bne_false]

/-- A bit vector is other than 0 exactly when one of its bits is set. -/
theorem ne_zero_iff_exists_getLsbD {w : Nat} {m : BitVec w} : m ≠ 0#w ↔ ∃ k, m.getLsbD k = true := by
  constructor
  · exact fun h => ⟨_, BitVec.getLsbD_true_ctz_of_ne_zero h⟩
  · rintro ⟨k, hk⟩ rfl
    rw [BitVec.getLsbD_zero] at hk
    cases hk

/-- The collision bit tells that a lit pixel is in the way of the mask. -/
theorem RefDisplay.drawByte_collision (xp b : Byte) (yp : Nat) (p : Pixels) :
    (RefDisplay.drawByte xp yp b p).1 = true ↔
      ∃ px, p[RefDisplay.rowIndex yp].getLsbD px = true ∧ (RefDisplay.rowMask xp b).getLsbD px = true := by
  simp only [RefDisplay.drawByte, bne_iff_ne, ne_zero_iff_exists_getLsbD, BitVec.getLsbD_and, Bool.and_eq_true]

/-- A pixel goes dark exactly when it was lit and the draw lights it. -/
theorem RefDisplay.drawByte_darkens_iff {xp b : Byte} {yp : Nat} {p : Pixels} {row : Fin 32} {px : Nat} :
    (p[row].getLsbD px = true ∧ (RefDisplay.drawByte xp yp b p).2[row].getLsbD px = false) ↔
      row = RefDisplay.rowIndex yp ∧ p[row].getLsbD px = true ∧ (RefDisplay.rowMask xp b).getLsbD px = true := by
  have hrow : row = RefDisplay.rowIndex yp ↔ row.val = yp % 32 := Fin.ext_iff
  rw [RefDisplay.drawByte_pixel, hrow]
  cases p[row].getLsbD px <;> simp

/-- The same draw again undoes the first: XOR with the mask twice. -/
theorem RefDisplay.drawByte_drawByte (xp b : Byte) (yp : Nat) (p : Pixels) :
    (RefDisplay.drawByte xp yp b (RefDisplay.drawByte xp yp b p).2).2 = p := by
  refine Vector.ext fun k hk => ?_
  have hfirst := RefDisplay.drawByte_row xp b yp p ⟨k, hk⟩
  have hsecond := RefDisplay.drawByte_row xp b yp (RefDisplay.drawByte xp yp b p).2 ⟨k, hk⟩
  refine hsecond.trans ?_
  rw [hfirst]
  split
  · rw [BitVec.xor_assoc, BitVec.xor_self, BitVec.xor_zero]; rfl
  · rfl

/-- Settles O34: the flipped pixels are the mask's, and a pixel that went dark lies in the mask's row. -/
theorem referenceDisplayXors : Obligations.ReferenceDisplayXors := by
  intro xp b yp p
  refine ⟨fun row px hpx => ?_, ?_, RefDisplay.drawByte_drawByte xp b yp p⟩
  · rw [RefDisplay.drawByte_pixel, RefDisplay.getLsbD_rowMask xp b hpx]
  · rw [RefDisplay.drawByte_collision]
    constructor
    · rintro ⟨px, hlit, hmask⟩
      exact ⟨_, px, BitVec.lt_of_getLsbD hmask, RefDisplay.drawByte_darkens_iff.2 ⟨rfl, hlit, hmask⟩⟩
    · rintro ⟨row, px, -, hdark⟩
      obtain ⟨rfl, hlit, hmask⟩ := RefDisplay.drawByte_darkens_iff.1 hdark
      exact ⟨px, hlit, hmask⟩

end Sys2Proof.Machine
end

section
/-! What a step answers the host, and the transactions of a baseline step in order (spec/20_memory.md R62 and Table R63). -/

namespace Sys2Proof.Machine

theorem State.SameBut.events_eq {l : List Part} {s t : State} (h : s.SameBut l t) (hl : .events ∉ l) : t.events = s.events := by
  obtain ⟨-, -, -, -, -, -, -, -, -, -, hevents, -⟩ := h
  exact hevents.resolve_left hl

/-! ### The step, one equation per case (R90, R95, R96) -/

theorem step_of_fault {s : State} {c : FaultCause} (hf : s.fault = some c) : step s = .fault (.latched c) := by
  simp only [step, cycle, hf]

theorem step_of_ok {s : State} {i : Instr} (hf : s.fault = none) (hd : decodeWord s.extEF (fetchWord s) = .ok i) :
    step s = exec i (fetchAdvance s) := by
  simp only [step, cycle, hf, runFetched, hd]

theorem step_of_error {s : State} {e : DecodeError} (hf : s.fault = none)
    (hd : decodeWord s.extEF (fetchWord s) = .error e) :
    step s = .next (unimplemented (fetchWord s) s.pc (fetchAdvance s)) := by
  simp only [step, cycle, hf, runFetched, hd]

/-! ### The answer -/

theorem response_of_next {s t : State} (h : step s = .next t) : response s = some (responseOf t) := by
  rw [response, show cycle s = .next t from h]

theorem responseOf_of_fault {t : State} {c : FaultCause} (h : t.fault = some c) : responseOf t = .fault c := by
  rw [responseOf, h]

theorem responseOf_unimplemented (op a : Word) {s : State} (h : s.fault = none) :
    responseOf (unimplemented op a s) = .okNotice op a := by
  have hlast : (unimplemented op a s).events.getLast? = some (.notice op a) := List.getLast?_concat
  rw [responseOf, show (unimplemented op a s).fault = none from h, hlast]

/-- The last transaction is no notice: what `responseOf` reads after an instruction, the fetch being such a one already. -/
def State.NoNoticeLast (s : State) : Prop := ∀ op a, s.events.getLast? ≠ some (.notice op a)

theorem responseOf_of_noNoticeLast {t : State} (hf : t.fault = none) (h : t.NoNoticeLast) : responseOf t = .ok := by
  simp only [responseOf, hf]
  split
  · next op a he => exact absurd he (h op a)
  · rfl

/-- It is so after any transaction but a notice. -/
theorem noNoticeLast_of_events {s t : State} {e : Event} (h : t.events = s.events ++ [e])
    (he : ∀ op a, e ≠ .notice op a) : t.NoNoticeLast := by
  intro op a hlast
  rw [h, List.getLast?_concat] at hlast
  exact he op a (Option.some.inj hlast)

theorem fetchAdvance_noNoticeLast (s : State) : (fetchAdvance s).NoNoticeLast :=
  noNoticeLast_of_events (fetchAdvance_events s) (by simp)

theorem skipIf_events (c : Bool) (s : State) : (skipIf c s).events = s.events := by rw [skipIf_eq, setPc_events]

theorem takeKey_events (x : Nibble) (key : Option Nibble) (s : State) : (takeKey x key s).events = s.events := by
  cases key <;> rfl

/-- One register loaded is one byte read (R162). -/
theorem loadRow_events (k : Nat) (s : State) :
    (loadRow k s).events = s.events ++ [.memRead (indexAddr s k) (peek s (indexAddr s k))] := rfl

/-- An instruction emits nothing, or something other than a notice last. -/
theorem exec_noNoticeLast {i : Instr} {s t : State} (hs : s.NoNoticeLast) (h : exec i s = .next t) : t.NoNoticeLast := by
  cases i with
  | call addr =>
    obtain ⟨-, rfl⟩ | ⟨_, rfl⟩ := execCall_cases h
    · exact noNoticeLast_of_events (raiseFault_events _ s) (by simp)
    · exact hs
  | ret =>
    obtain ⟨-, rfl⟩ | ⟨_, rfl⟩ := execRet_cases h
    · exact noNoticeLast_of_events (raiseFault_events _ s) (by simp)
    · exact hs
  | cls => cases h; exact noNoticeLast_of_events (dispClear_events s) (by simp)
  | rnd => cases h; exact noNoticeLast_of_events (randomByte_events s) (by simp)
  | drw => cases h; exact noNoticeLast_of_events (dispUpdate_events _) (by simp)
  | skp | sknp =>
    cases h
    exact noNoticeLast_of_events ((skipIf_events _ _).trans (keyPressed_events _ s)) (by simp)
  | ldVxDt => cases h; exact noNoticeLast_of_events (timerReadDelay_events s) (by simp)
  | ldVxK => cases h; exact noNoticeLast_of_events ((takeKey_events _ _ _).trans (waitKey_events s)) (by simp)
  | ldDtVx => cases h; exact noNoticeLast_of_events (timerWrite_dt_events _ s) (by simp)
  | ldStVx => cases h; exact noNoticeLast_of_events (timerWrite_st_events _ s) (by simp)
  | ldB | stRegs =>
    cases h
    exact forUpTo_induct (P := fun _ u => u.NoNoticeLast) hs
      (fun k u _ => noNoticeLast_of_events (memWrite_events (indexAddr u k) _ u) (by simp)) _
  | ldRegs =>
    cases h
    exact forUpTo_induct (P := fun _ u => u.NoNoticeLast) hs
      (fun k u _ => noNoticeLast_of_events (loadRow_events k u) (by simp)) _
  | _ =>
    have hev : t.events = s.events := (exec_sameBut h).events_eq (by simp [writes])
    rwa [State.NoNoticeLast, hev]

section
variable {s t : State} {i : Instr}

theorem response_of_exec (hf : s.fault = none) (hd : decodeWord s.extEF (fetchWord s) = .ok i)
    (hx : exec i (fetchAdvance s) = .next t) (ht : t.fault = none) : response s = some .ok := by
  have hlast : t.NoNoticeLast := exec_noNoticeLast (fetchAdvance_noNoticeLast s) hx
  rw [response_of_next ((step_of_ok hf hd).trans hx), responseOf_of_noNoticeLast ht hlast]

theorem response_of_exec_fault {c : FaultCause} (hf : s.fault = none) (hd : decodeWord s.extEF (fetchWord s) = .ok i)
    (hx : exec i (fetchAdvance s) = .next t) (ht : t.fault = some c) : response s = some (.fault c) := by
  rw [response_of_next ((step_of_ok hf hd).trans hx), responseOf_of_fault ht]

/-- An instruction that has no fault to raise answers `ok` when it completes. -/
theorem response_of_exec_frame (hf : s.fault = none) (hd : decodeWord s.extEF (fetchWord s) = .ok i)
    (hx : exec i (fetchAdvance s) = .next t) (hw : .fault ∉ writes i) : response s = some .ok :=
  response_of_exec hf hd hx (((exec_sameBut hx).fault_eq hw).trans hf)

end

theorem sp_ne_full {s : State} (h : s.sp.toNat < 16) : s.sp ≠ 16#8 := by
  rintro he
  simp [he] at h

theorem sp_ne_empty {s : State} (h : 0 < s.sp.toNat) : s.sp ≠ 0#8 := by
  rintro he
  simp [he] at h

/-- Settles O9: an unimplemented word leaves its notice last, every instruction leaves none last, and only a call with a full
stack and a return with an empty one set the latch. -/
theorem responseOfEveryStep : Obligations.ResponseOfEveryStep := by
  refine ⟨fun s c hf => ?_, fun s hinv hf => ?_⟩
  · rw [response, show cycle s = .fault (.latched c) from step_of_fault hf]
  · obtain ⟨-, hsp, -⟩ := hinv
    rcases hd : decodeWord s.extEF (fetchWord s) with e | i
    · rw [response_of_next (step_of_error hf hd), responseOf_unimplemented (s := fetchAdvance s) _ _ hf]
    · cases i with
      | call addr =>
        obtain h | h | h := callSp_cases s
        · exact (response_of_exec_fault hf hd (execCall_of_full addr h) rfl).trans (if_pos h).symm
        · exact (response_of_exec hf hd (execCall_of_lt (s := fetchAdvance s) addr h) hf).trans (if_neg (sp_ne_full h)).symm
        · omega
      | ret =>
        obtain h | h | h := retSp_cases s
        · exact (response_of_exec_fault hf hd (execRet_of_empty h) rfl).trans (if_pos h).symm
        · exact (response_of_exec hf hd (execRet_of_pos (s := fetchAdvance s) h) hf).trans (if_neg (sp_ne_empty h.1)).symm
        · omega
      | _ => exact response_of_exec_frame hf hd rfl (by simp [writes])

/-! ### The transactions of Table R63 -/

/-- What follows the fetch in the history. -/
theorem events_after_fetch {s t : State} {es : List Event} (h : t.events = (fetchAdvance s).events ++ es) :
    t.events = s.events ++ .fetch s.pc (fetchWord s) :: es := by
  rw [h, fetchAdvance_events, List.append_assoc, List.singleton_append]

theorem execCall_events {addr : Addr} {s t : State} (h : execCall addr s = .next t) :
    t.events = s.events ++ if s.sp = 16#8 then [.report .stackOverflow] else [] := by
  obtain ⟨hsp, rfl⟩ | ⟨hsp, rfl⟩ := execCall_cases h
  · rw [if_pos hsp, raiseFault_events]
  · rw [if_neg (sp_ne_full hsp), List.append_nil, setPc_events, pushWord_events]

theorem execRet_events {s t : State} (h : execRet s = .next t) :
    t.events = s.events ++ if s.sp = 0#8 then [.report .stackUnderflow] else [] := by
  obtain ⟨hsp, rfl⟩ | ⟨hsp, rfl⟩ := execRet_cases h
  · rw [if_pos hsp, raiseFault_events]
  · rw [if_neg (sp_ne_empty hsp.1), List.append_nil, setPc_events, popWord_events]

/-- A row of a sprite: its byte is read, then drawn with the Display's next answer (R141). -/
theorem drawRow_events (xp yp : Byte) (r : Nat) (s : State) :
    (drawRow xp yp r s).events = s.events ++
      [.memRead (indexAddr s r) (peek s (indexAddr s r)),
       .dispDrawByte xp (yp.toNat + r) (peek s (indexAddr s r)) (s.sources.collision.draw Config.collision).1] := by
  have hask : (askRow xp yp r s).events = s.events ++ [_] ++ [_] := rfl
  rw [drawRow_eq]
  split
  · rw [writeVF_eq, writeV_events, hask, List.append_assoc]; rfl
  · rw [hask, List.append_assoc]; rfl

theorem drawTransactions_concat (s : State) (xp yp : Byte) (cs : List Bool) (c : Bool) :
    drawTransactions s xp yp (cs ++ [c]) = drawTransactions s xp yp cs ++
      [.memRead (s.i.toNat + cs.length) (peek s (s.i.toNat + cs.length)),
       .dispDrawByte xp (yp.toNat + cs.length) (peek s (s.i.toNat + cs.length)) c] := by
  simp [drawTransactions, List.zipIdx_append]

/-- The rows of a sprite in order, one answer of the Display for each: drawing moves neither `I` nor memory. -/
theorem drawRows_events (xp yp : Byte) (n : Nat) (s : State) :
    ∃ cs : List Bool, cs.length = n ∧
      (forUpTo n (drawRow xp yp) s).events = s.events ++ drawTransactions s xp yp cs := by
  induction n with
  | zero => exact ⟨[], rfl, (List.append_nil _).symm⟩
  | succ n ih =>
    obtain ⟨cs, hlen, hev⟩ := ih
    have hframe : s.SameBut _ (forUpTo n (drawRow xp yp) s) := forUpTo_sameBut (drawRow_sameBut xp yp) n s
    have haddr : indexAddr (forUpTo n (drawRow xp yp) s) n = s.i.toNat + n := by
      rw [indexAddr, hframe.i_eq (by decide)]
    refine ⟨cs ++ [((forUpTo n (drawRow xp yp) s).sources.collision.draw Config.collision).1], by simp [hlen], ?_⟩
    rw [forUpTo_succ, drawRow_events, hev, haddr, hframe.peek_eq (by decide), drawTransactions_concat, hlen,
      List.append_assoc]

theorem execDrw_events {x y n : Nibble} {s t : State} (h : execDrw x y n s = .next t) :
    ∃ cs : List Bool, cs.length = n.toNat ∧
      t.events = s.events ++ (drawTransactions s (readV x s) (readV y s) cs ++ [.dispUpdate]) := by
  cases h
  obtain ⟨cs, hlen, hev⟩ := drawRows_events (readV x s) (readV y s) n.toNat (writeVF 0#8 s)
  refine ⟨cs, hlen, ?_⟩
  rw [dispUpdate_events, hev, List.append_assoc]
  rfl

/-- Settles O10: Table R63 row by row; an instruction without a row does not write the history. -/
theorem transactionsOfAStep : Obligations.TransactionsOfAStep := by
  refine ⟨fun s hf t h => hf (step_cases h).1, fun s t _ hext h => ?_⟩
  obtain ⟨-, ⟨i, hd, hx⟩ | ⟨e, hd, rfl⟩⟩ := step_cases h
  · rw [hext] at hd
    have hbase := decodeWord_baseline hd
    rw [hd]
    cases i with
    | cls => cases hx; exact ⟨_, events_after_fetch rfl, rfl⟩
    | rnd => cases hx; exact ⟨_, events_after_fetch rfl, _, rfl⟩
    | drw =>
      obtain ⟨cs, hlen, hev⟩ := execDrw_events hx
      exact ⟨_, events_after_fetch hev, cs, hlen, rfl⟩
    | call => exact ⟨_, events_after_fetch (execCall_events hx), rfl⟩
    | ret => exact ⟨_, events_after_fetch (execRet_events hx), rfl⟩
    | skp | sknp | ldVxDt | ldVxK | ldDtVx | ldStVx | ldB | stRegs | ldRegs => cases hbase
    | _ =>
      have hev := (exec_sameBut hx).events_eq (by simp [writes])
      exact ⟨[], events_after_fetch (hev.trans (List.append_nil _).symm), rfl⟩
  · rw [hext] at hd
    rw [hd]
    exact ⟨_, events_after_fetch rfl, rfl⟩

end Sys2Proof.Machine
end

section
/-! Decoder and encoder against each other (spec/30_encoding.md R70 to R77, spec/44_optional_ef_extension.md R150, R163): a well
formed instruction is read back from its word, a word that decodes is the word of its instruction, and a word decodes to a row exactly
when it selects it. -/

namespace Sys2Proof.Machine

/-! ### From an instruction to its word and back -/

theorem selectRow_encodeWord {ext : Bool} {i : Instr} (h : i.wellFormed ext = true) : selectRow ext (encodeWord i) = some i := by
  cases i with
  | skp | sknp | ldVxDt | ldVxK | ldDtVx | ldStVx | addI | ldF | ldB | stRegs | ldRegs =>
    obtain rfl : ext = true := h
    simp [encodeWord, selectRow, decodeE, decodeF]
  | _ => simp [encodeWord, selectRow, decodeAlu]

theorem decodeWord_encodeWord {ext : Bool} {i : Instr} (h : i.wellFormed ext = true) : decodeWord ext (encodeWord i) = .ok i :=
  decodeWord_ok.2 (selectRow_encodeWord h)

/-- Settles O2: the two bytes assemble to the word of the instruction, and that word selects the instruction's row. -/
theorem decodeOfEncode : Obligations.DecodeOfEncode := by
  intro ext i rest h
  rw [show encode i ++ rest = highByte (encodeWord i) :: lowByte (encodeWord i) :: rest from rfl, decode_two, wordOfBytes_bytes,
    decodeWord_encodeWord h]

/-- Settles O1: each word is the encoding of its instruction. -/
theorem decodesWordsOfTheSpec : Obligations.DecodesWordsOfTheSpec :=
  ⟨decodeWord_encodeWord (i := .cls) rfl, decodeWord_encodeWord (i := .call 0x210#12) rfl,
    decodeWord_encodeWord (i := .sneImm 0xB#4 0x7D#8) rfl, decodeWord_encodeWord (i := .subReg 0xA#4 0xB#4) rfl,
    decodeWord_encodeWord (i := .drw 0x0#4 0x1#4 0x2#4) rfl, decodeWord_encodeWord (i := .ldB 0x0#4) rfl,
    decodeWord_error.2 ⟨by decide, rfl⟩⟩

/-! ### From a word to its instruction and back -/

section
variable {op : Word} {n0 : Nibble}

theorem wordAddr_of_fields {addr : Addr} (h0 : nib0 op = n0) (ha : fieldAddr op = addr) : wordAddr n0 addr = op := by
  rw [← h0, ← ha, wordAddr_fields]

theorem wordXKk_of_fields {kk : Byte} (h0 : nib0 op = n0) (hk : fieldKk op = kk) : wordXKk n0 (fieldX op) kk = op := by
  rw [← h0, ← hk, wordXKk_fields]

theorem wordXYN_of_fields {n : Nibble} (h0 : nib0 op = n0) (hn : fieldN op = n) : wordXYN n0 (fieldX op) (fieldY op) n = op := by
  rw [← h0, ← hn, wordXYN_fields]

end

section
variable {ext : Bool} {op : Word} {i : Instr}

theorem encodeWord_of_decodeAlu (h0 : nib0 op = 0x8#4) (h : decodeAlu op = some i) : encodeWord i = op := by
  simp only [decodeAlu] at h
  split_ifs at h
  all_goals cases h; exact wordXYN_of_fields h0 ‹_›

theorem encodeWord_of_decodeE (h0 : nib0 op = 0xE#4) (h : decodeE op = some i) : encodeWord i = op := by
  simp only [decodeE] at h
  split_ifs at h
  all_goals cases h; exact wordXKk_of_fields h0 ‹_›

theorem encodeWord_of_decodeF (h0 : nib0 op = 0xF#4) (h : decodeF op = some i) : encodeWord i = op := by
  simp only [decodeF] at h
  split_ifs at h
  all_goals cases h; exact wordXKk_of_fields h0 ‹_›

/-- The first nibble decides; `0x0`, `0x5`, `0x8`, `0x9`, `0xE` and `0xF` are the groups with more fixed digits. -/
theorem encodeWord_of_selectRow (h : selectRow ext op = some i) : encodeWord i = op := by
  obtain h0 | h0 | h0 | h0 | h0 | h0 | h0 | h0 | h0 | h0 | h0 | h0 | h0 | h0 | h0 | h0 := nibble_cases (nib0 op)
  all_goals simp only [selectRow, h0, reduceIte, BitVec.reduceEq] at h
  any_goals cases h; simp only [encodeWord, ← h0, wordAddr_fields, wordXKk_fields, wordXYN_fields]
  · split_ifs at h with ha ha <;> cases h <;> exact wordAddr_of_fields h0 ha
  · split_ifs at h with hn; cases h; exact wordXYN_of_fields h0 hn
  · exact encodeWord_of_decodeAlu h0 h
  · split_ifs at h with hn; cases h; exact wordXYN_of_fields h0 hn
  · split_ifs at h; exact encodeWord_of_decodeE h0 h
  · split_ifs at h; exact encodeWord_of_decodeF h0 h

theorem encodeWord_of_decodeWord (h : decodeWord ext op = .ok i) : encodeWord i = op := encodeWord_of_selectRow (decodeWord_ok.1 h)

theorem wellFormed_of_decodeWord (h : decodeWord ext op = .ok i) : i.wellFormed ext = true := by
  cases ext with
  | false => rw [Instr.wellFormed, decodeWord_baseline h]; rfl
  | true => rw [Instr.wellFormed, Bool.or_true]

end

/-- Settles O3. -/
theorem encodeOfDecode : Obligations.EncodeOfDecode := fun _ _ _ h => ⟨encodeWord_of_decodeWord h, wellFormed_of_decodeWord h⟩

/-! ### The rows of the opcode map -/

theorem row_mem_opcodeMap (i : Instr) : i.row ∈ opcodeMap := by
  cases i
  all_goals simp only [Instr.row]; decide

theorem exists_row_of_mem_opcodeMap {r : OpcodeRow} (h : r ∈ opcodeMap) : ∃ i : Instr, i.row = r := by
  obtain ⟨i, -, hi⟩ := List.mem_map.1 h
  exact ⟨i, hi⟩

open Laws.EncodeRow in
/-- The family `EncodeRow` over all instructions. -/
theorem encodeWord_and_mask : (i : Instr) → encodeWord i &&& i.row.mask = i.row.value
  | .cls => cls
  | .ret => ret
  | .jp addr => jp addr
  | .call addr => call addr
  | .seImm x kk => seImm x kk
  | .sneImm x kk => sneImm x kk
  | .seReg x y => seReg x y
  | .ldImm x kk => ldImm x kk
  | .addImm x kk => addImm x kk
  | .ldReg x y => ldReg x y
  | .orReg x y => orReg x y
  | .andReg x y => andReg x y
  | .xorReg x y => xorReg x y
  | .addReg x y => addReg x y
  | .subReg x y => subReg x y
  | .shr x y => shr x y
  | .subnReg x y => subnReg x y
  | .shl x y => shl x y
  | .sneReg x y => sneReg x y
  | .ldI addr => ldI addr
  | .jpV0 addr => jpV0 addr
  | .rnd x kk => rnd x kk
  | .drw x y n => drw x y n
  | .skp x => skp x
  | .sknp x => sknp x
  | .ldVxDt x => ldVxDt x
  | .ldVxK x => ldVxK x
  | .ldDtVx x => ldDtVx x
  | .ldStVx x => ldStVx x
  | .addI x => addI x
  | .ldF x => ldF x
  | .ldB x => ldB x
  | .stRegs x => stRegs x
  | .ldRegs x => ldRegs x

/-- The instruction of the same row with the field values of a word (R73, R76). -/
def withFields (op : Word) : Instr → Instr
  | .cls => .cls
  | .ret => .ret
  | .jp _ => .jp (fieldAddr op)
  | .call _ => .call (fieldAddr op)
  | .seImm _ _ => .seImm (fieldX op) (fieldKk op)
  | .sneImm _ _ => .sneImm (fieldX op) (fieldKk op)
  | .seReg _ _ => .seReg (fieldX op) (fieldY op)
  | .ldImm _ _ => .ldImm (fieldX op) (fieldKk op)
  | .addImm _ _ => .addImm (fieldX op) (fieldKk op)
  | .ldReg _ _ => .ldReg (fieldX op) (fieldY op)
  | .orReg _ _ => .orReg (fieldX op) (fieldY op)
  | .andReg _ _ => .andReg (fieldX op) (fieldY op)
  | .xorReg _ _ => .xorReg (fieldX op) (fieldY op)
  | .addReg _ _ => .addReg (fieldX op) (fieldY op)
  | .subReg _ _ => .subReg (fieldX op) (fieldY op)
  | .shr _ _ => .shr (fieldX op) (fieldY op)
  | .subnReg _ _ => .subnReg (fieldX op) (fieldY op)
  | .shl _ _ => .shl (fieldX op) (fieldY op)
  | .sneReg _ _ => .sneReg (fieldX op) (fieldY op)
  | .ldI _ => .ldI (fieldAddr op)
  | .jpV0 _ => .jpV0 (fieldAddr op)
  | .rnd _ _ => .rnd (fieldX op) (fieldKk op)
  | .drw _ _ _ => .drw (fieldX op) (fieldY op) (fieldN op)
  | .skp _ => .skp (fieldX op)
  | .sknp _ => .sknp (fieldX op)
  | .ldVxDt _ => .ldVxDt (fieldX op)
  | .ldVxK _ => .ldVxK (fieldX op)
  | .ldDtVx _ => .ldDtVx (fieldX op)
  | .ldStVx _ => .ldStVx (fieldX op)
  | .addI _ => .addI (fieldX op)
  | .ldF _ => .ldF (fieldX op)
  | .ldB _ => .ldB (fieldX op)
  | .stRegs _ => .stRegs (fieldX op)
  | .ldRegs _ => .ldRegs (fieldX op)

@[simp] theorem withFields_row (op : Word) (i : Instr) : (withFields op i).row = i.row := by cases i <;> rfl

theorem row_ext (i : Instr) : i.row.ext = i.isExtension := by cases i <;> rfl

section
variable {op v : Word}

theorem nib0_of_and_F000 (h : op &&& 0xF000#16 = v) : nib0 op = nib0 v := by rw [← h, and_F000, nib0_wordXYN]

theorem fields_of_and_F00F (h : op &&& 0xF00F#16 = v) : nib0 op = nib0 v ∧ fieldN op = fieldN v := by
  rw [← h, and_F00F, nib0_wordXYN, fieldN_wordXYN]; exact ⟨rfl, rfl⟩

theorem fields_of_and_F0FF (h : op &&& 0xF0FF#16 = v) : nib0 op = nib0 v ∧ fieldKk op = fieldKk v := by
  rw [← h, and_F0FF, nib0_wordXKk, fieldKk_wordXKk]; exact ⟨rfl, rfl⟩

end

/-- A word that selects a row is the encoding of that row's instruction with the word's fields: the mask fixes the digits that are
not fields. -/
theorem encodeWord_withFields {op : Word} {i : Instr} (h : op &&& i.row.mask = i.row.value) : encodeWord (withFields op i) = op := by
  cases i
  all_goals simp only [Instr.row] at h
  case cls | ret => exact h.symm.trans (and_FFFF op)
  case jp | call | ldI | jpV0 => exact wordAddr_of_fields (nib0_of_and_F000 h) rfl
  case seImm | sneImm | ldImm | addImm | rnd => exact wordXKk_of_fields (nib0_of_and_F000 h) rfl
  case drw => exact wordXYN_of_fields (nib0_of_and_F000 h) rfl
  case skp | sknp | ldVxDt | ldVxK | ldDtVx | ldStVx | addI | ldF | ldB | stRegs | ldRegs =>
    obtain ⟨h0, hk⟩ := fields_of_and_F0FF h
    exact wordXKk_of_fields h0 hk
  all_goals
    obtain ⟨h0, hn⟩ := fields_of_and_F00F h
    exact wordXYN_of_fields h0 hn

theorem selectedBy_iff {r : OpcodeRow} {ext : Bool} {op : Word} :
    r.selectedBy ext op = true ↔ op &&& r.mask = r.value ∧ (!r.ext || ext) = true := by
  rw [OpcodeRow.selectedBy, Bool.and_eq_true, beq_iff_eq]

section
variable {ext : Bool} {op : Word} {i : Instr}

theorem row_selectedBy_of_decodeWord (h : decodeWord ext op = .ok i) : i.row.selectedBy ext op = true := by
  have hwf : i.wellFormed ext = true := wellFormed_of_decodeWord h
  rw [← encodeWord_of_decodeWord h, selectedBy_iff, row_ext]
  exact ⟨encodeWord_and_mask i, hwf⟩

theorem decodeWord_of_row_selectedBy (h : i.row.selectedBy ext op = true) : decodeWord ext op = .ok (withFields op i) := by
  obtain ⟨hmask, hext⟩ := selectedBy_iff.1 h
  have hwf : (withFields op i).wellFormed ext = true := by rwa [Instr.wellFormed, ← row_ext, withFields_row]
  have hdecode := decodeWord_encodeWord hwf
  rwa [encodeWord_withFields hmask] at hdecode

end

theorem decodeWord_ok_or_unimplemented (ext : Bool) (op : Word) :
    (∃ i, decodeWord ext op = .ok i) ∨ decodeWord ext op = .error (.unimplemented op) := by
  rcases h : decodeWord ext op with e | i
  · exact .inr (by rw [(decodeWord_error.1 h).2])
  · exact .inl ⟨i, rfl⟩

/-- Two selected rows are both the row of the instruction the word decodes to. -/
theorem row_eq_of_selectedBy {ext : Bool} {op : Word} {i j : Instr} (hi : i.row.selectedBy ext op = true)
    (hj : j.row.selectedBy ext op = true) : i.row = j.row := by
  have h : Except.ok (withFields op i) = Except.ok (withFields op j) :=
    (decodeWord_of_row_selectedBy hi).symm.trans (decodeWord_of_row_selectedBy hj)
  rw [← withFields_row op i, Except.ok.inj h, withFields_row]

theorem decodeWord_unimplemented_iff_no_row (ext : Bool) (op : Word) :
    decodeWord ext op = .error (.unimplemented op) ↔ ∀ r ∈ opcodeMap, r.selectedBy ext op = false := by
  constructor
  · intro h r hr
    obtain ⟨i, rfl⟩ := exists_row_of_mem_opcodeMap hr
    refine Bool.eq_false_iff.2 fun hsel => ?_
    cases h.symm.trans (decodeWord_of_row_selectedBy hsel)
  · intro h
    refine (decodeWord_ok_or_unimplemented ext op).resolve_left fun ⟨i, hi⟩ => ?_
    exact absurd (row_selectedBy_of_decodeWord hi) (Bool.eq_false_iff.1 (h i.row (row_mem_opcodeMap i)))

/-- Settles O4: a word selects a row exactly when it decodes to the row's instruction with the word's fields. -/
theorem opcodeMapDisjointAndTotal : Obligations.OpcodeMapDisjointAndTotal := by
  refine ⟨by decide, fun op r hr r' hr' hsel hsel' => ?_, fun ext op => ?_,
    fun ext op i h => ⟨row_mem_opcodeMap i, row_selectedBy_of_decodeWord h⟩, decodeWord_unimplemented_iff_no_row,
    fun _ _ _ _ => ⟨rfl, rfl⟩⟩
  · obtain ⟨i, rfl⟩ := exists_row_of_mem_opcodeMap hr
    obtain ⟨j, rfl⟩ := exists_row_of_mem_opcodeMap hr'
    exact row_eq_of_selectedBy hsel hsel'
  · exact (decodeWord_ok_or_unimplemented ext op).imp_left fun ⟨i, hi⟩ => ⟨i, hi, encodeWord_of_decodeWord hi⟩

end Sys2Proof.Machine
end

section
/-! The unimplemented words as numbers and how many there are (Table R77, R163), the step on one (R95), and the step on a placed word. -/

namespace Sys2Proof.Machine

/-! ### A word as its first digit and the rest -/

theorem toNat_eq_nib0_fieldAddr (op : Word) : op.toNat = (nib0 op).toNat * 4096 + (fieldAddr op).toNat := by
  rw [nib0_toNat, fieldAddr_toNat]; omega

theorem fieldN_toNat_of_fieldAddr (op : Word) : (fieldN op).toNat = (fieldAddr op).toNat % 16 := by
  rw [fieldN_toNat, fieldAddr_toNat]; omega

theorem fieldKk_toNat_of_fieldAddr (op : Word) : (fieldKk op).toNat = (fieldAddr op).toNat % 256 := by
  rw [fieldKk_toNat, fieldAddr_toNat]; omega

theorem unimplementedR77_block {q r : Nat} (hr : r < 4096) :
    unimplementedR77 (q * 4096 + r) =
      (q == 0 && r != 0x0E0 && r != 0x0EE || q == 5 && r % 16 != 0 ||
       q == 8 && [0x8, 0x9, 0xA, 0xB, 0xC, 0xD, 0xF].contains (r % 16) || q == 9 && r % 16 != 0 || q == 14 || q == 15) := by
  have hdiv : (q * 4096 + r) / 4096 = q := by omega
  have hmod : (q * 4096 + r) % 16 = r % 16 := by omega
  have hlow : (decide (q * 4096 + r < 0x1000) && q * 4096 + r != 0x00E0 && q * 4096 + r != 0x00EE) =
      (q == 0 && r != 0x0E0 && r != 0x0EE) := by
    rw [Bool.eq_iff_iff]; simp; omega
  rw [unimplementedR77, hlow, hdiv, hmod]

theorem extensionWord_block {q r : Nat} (hr : r < 4096) :
    extensionWord (q * 4096 + r) =
      (q == 14 && [0x9E, 0xA1].contains (r % 256) ||
       q == 15 && [0x07, 0x0A, 0x15, 0x18, 0x1E, 0x29, 0x33, 0x55, 0x65].contains (r % 256)) := by
  have hdiv : (q * 4096 + r) / 4096 = q := by omega
  have hmod : (q * 4096 + r) % 256 = r % 256 := by omega
  rw [extensionWord, hdiv, hmod]

/-! ### The words that select no row -/

/-- The unimplemented words of a machine with the switch at `ext`: Table R77, less the eleven patterns of R163 when it is on. -/
def unimplementedWith (ext : Bool) (w : Nat) : Bool := unimplementedR77 w && !(ext && extensionWord w)

theorem ite_some_eq_none {α : Type} {c : Prop} [Decidable c] {a : α} {o : Option α} :
    (if c then some a else o) = none ↔ ¬c ∧ o = none := by
  split <;> simp [*]

theorem decodeAlu_eq_none_iff (op : Word) :
    decodeAlu op = none ↔ [0x8, 0x9, 0xA, 0xB, 0xC, 0xD, 0xF].contains (fieldN op).toNat = true := by
  unfold decodeAlu
  obtain h | h | h | h | h | h | h | h | h | h | h | h | h | h | h | h := nibble_cases (fieldN op) <;> simp [h]

theorem decodeE_eq_none_iff (op : Word) : decodeE op = none ↔ [0x9E, 0xA1].contains (fieldKk op).toNat = false := by
  simp [decodeE, ite_some_eq_none, ← BitVec.toNat_inj]

theorem decodeF_eq_none_iff (op : Word) :
    decodeF op = none ↔ [0x07, 0x0A, 0x15, 0x18, 0x1E, 0x29, 0x33, 0x55, 0x65].contains (fieldKk op).toNat = false := by
  simp [decodeF, ite_some_eq_none, ← BitVec.toNat_inj]

theorem selectRow_eq_none_iff (ext : Bool) (op : Word) : selectRow ext op = none ↔ unimplementedWith ext op.toNat = true := by
  rw [unimplementedWith, toNat_eq_nib0_fieldAddr, unimplementedR77_block (fieldAddr op).isLt,
    extensionWord_block (fieldAddr op).isLt, ← fieldN_toNat_of_fieldAddr, ← fieldKk_toNat_of_fieldAddr]
  obtain h | h | h | h | h | h | h | h | h | h | h | h | h | h | h | h := nibble_cases (nib0 op)
  all_goals cases ext
  all_goals simp [selectRow, h, ite_some_eq_none, decodeAlu_eq_none_iff, decodeE_eq_none_iff, decodeF_eq_none_iff,
    ← BitVec.toNat_inj]

theorem decodeWord_unimplemented_iff (ext : Bool) (op : Word) :
    decodeWord ext op = .error (.unimplemented op) ↔ unimplementedWith ext op.toNat = true := by
  rw [decodeWord_error, and_iff_left rfl, selectRow_eq_none_iff]

/-! ### How many there are -/

theorem countP_range_blocks (p : Nat → Bool) (m n : Nat) :
    (List.range (n * m)).countP p = ((List.range n).map fun q => (List.range m).countP fun r => p (q * m + r)).sum := by
  induction n with
  | zero => simp
  | succ n ih => simp [Nat.succ_mul, List.range_add, List.range_succ, ih, Function.comp_def]

theorem countP_range_mod (p : Nat → Bool) (m n : Nat) :
    (List.range (n * m)).countP (fun r => p (r % m)) = n * (List.range m).countP p := by
  have hblock (q : Nat) : (List.range m).countP (fun r => p ((q * m + r) % m)) = (List.range m).countP p := by
    refine List.countP_congr fun r hr => ?_
    rw [Nat.mul_add_mod', Nat.mod_eq_of_lt (List.mem_range.1 hr)]
  simp only [countP_range_blocks, hblock, List.map_const', List.length_range, List.sum_replicate_nat]

theorem countP_range_notMem {l : List Nat} {n : Nat} (hl : l.Nodup) (hlt : ∀ a ∈ l, a < n) :
    (List.range n).countP (fun r => r ∉ l) = n - l.length := by
  have hsub : l.toFinset ⊆ Finset.range n := fun a ha => Finset.mem_range.2 (hlt a (List.mem_toFinset.1 ha))
  have hcard := Finset.card_sdiff_of_subset hsub
  rw [Finset.card_range, List.toFinset_card_of_nodup hl, ← Finset.filter_notMem_eq_sdiff] at hcard
  simp only [List.mem_toFinset] at hcard
  rwa [← Nat.count_eq_card_filter_range] at hcard

/-- Which words with a given first digit are instructions: those whose remainder by `modulus` is one of `tails`. -/
structure TailRule where
  modulus : Nat
  tails : List Nat

/-- The rule of first digit `q` in Tables R75 and R150; modulus 1 takes every word. -/
def tailRule (ext : Bool) (q : Nat) : TailRule :=
  match q with
  | 0 => ⟨4096, [0x0E0, 0x0EE]⟩
  | 5 | 9 => ⟨16, [0x0]⟩
  | 8 => ⟨16, [0x0, 0x1, 0x2, 0x3, 0x4, 0x5, 0x6, 0x7, 0xE]⟩
  | 14 => ⟨256, if ext then [0x9E, 0xA1] else []⟩
  | 15 => ⟨256, if ext then [0x07, 0x0A, 0x15, 0x18, 0x1E, 0x29, 0x33, 0x55, 0x65] else []⟩
  | _ => ⟨1, [0]⟩

theorem unimplementedWith_iff_tailRule (ext : Bool) (q : Nat) {r : Nat} (hr : r < 4096) :
    unimplementedWith ext (q * 4096 + r) = true ↔ r % (tailRule ext q).modulus ∉ (tailRule ext q).tails := by
  rw [unimplementedWith, unimplementedR77_block hr, extensionWord_block hr]
  unfold tailRule
  split
  case h_1 => simp [Nat.mod_eq_of_lt hr]
  case h_2 | h_3 => simp
  case h_4 => simp; omega
  case h_5 | h_6 => cases ext <;> simp
  case h_7 => simp_all [Nat.mod_one]

theorem tailRule_counts (ext : Bool) (q : Nat) :
    (tailRule ext q).tails.Nodup ∧ (∀ a ∈ (tailRule ext q).tails, a < (tailRule ext q).modulus) ∧
      4096 / (tailRule ext q).modulus * (tailRule ext q).modulus = 4096 := by
  unfold tailRule
  cases ext <;> split <;> decide

theorem countP_unimplementedWith_block (ext : Bool) (q : Nat) :
    (List.range 4096).countP (fun r => unimplementedWith ext (q * 4096 + r)) =
      4096 / (tailRule ext q).modulus * ((tailRule ext q).modulus - (tailRule ext q).tails.length) := by
  obtain ⟨hnodup, hlt, hdvd⟩ := tailRule_counts ext q
  rw [← countP_range_notMem hnodup hlt, ← countP_range_mod, hdvd]
  refine List.countP_congr fun r hr => ?_
  rw [unimplementedWith_iff_tailRule ext q (List.mem_range.1 hr), decide_eq_true_iff]

theorem countP_unimplementedWith (ext : Bool) :
    (List.range 65536).countP (unimplementedWith ext) = if ext then 21582 else 21758 := by
  refine (countP_range_blocks (unimplementedWith ext) 4096 16).trans ?_
  simp only [countP_unimplementedWith_block]
  cases ext <;> decide

theorem unimplementedWith_false : unimplementedWith false = unimplementedR77 := by
  funext w
  rw [unimplementedWith, Bool.false_and, Bool.not_false, Bool.and_true]

theorem unimplementedWith_true : unimplementedWith true = fun w => unimplementedR77 w && !extensionWord w := by
  funext w
  rw [unimplementedWith, Bool.true_and]

/-! ### The step on an unimplemented word -/

theorem fetchAdvance_sameBut (s : State) : s.SameBut [.pc, .events] (fetchAdvance s) :=
  sameBut_seq (emit_sameBut _ s) (setPc_sameBut _ _) (by decide)

theorem unimplemented_sameBut (op a : Word) (s : State) : s.SameBut [.events] (unimplemented op a s) := emit_sameBut _ s

/-- Settles O5: one description of the unimplemented words for both settings of the switch, counted by first digit. -/
theorem unimplementedWords : Obligations.UnimplementedWords := by
  refine ⟨fun op => ?_, ?_, fun op => ?_, ?_, ?_, fun s hf hd => ?_⟩
  · rw [decodeWord_unimplemented_iff, unimplementedWith_false]
  · rw [← unimplementedWith_false]; exact countP_unimplementedWith false
  · rw [decodeWord_unimplemented_iff, unimplementedWith_true, Bool.and_eq_true, Bool.not_eq_true']
  · rw [← unimplementedWith_true]; exact countP_unimplementedWith true
  · exact (decodeWord_unimplemented_iff true 0xFFFF#16).2 (by decide)
  · exact ⟨_, step_of_error hf hd, rfl, hf, List.append_assoc _ _ _,
      sameBut_seq (fetchAdvance_sameBut s) (unimplemented_sameBut _ _ _) (by decide)⟩

/-! ### The step on a placed word -/

theorem tableWord_toNat (op : Word) : tableWord 16 op.toNat = op := by
  rw [tableWord, Nat.mod_eq_of_lt op.isLt, BitVec.ofNat_toNat, BitVec.setWidth_eq]

theorem decodeTableWord_encodeWord (i : Instr) : decodeTableWord 16 (encodeWord i).toNat = some i := by
  have hdecode : decode true (bytesOfWord (encodeWord i)) = .ok (i, []) :=
    decodeOfEncode true i [] (by rw [Instr.wellFormed, Bool.or_true])
  rw [decodeTableWord, tableWord_toNat, hdecode]

theorem wellFormed_withFetchWord (i : Instr) (s : State) :
    i.wellFormed (s.withFetchWord 16 (encodeWord i).toNat).extEF = true := by
  have hext : (s.withFetchWord 16 (encodeWord i).toNat).extEF = (s.extEF || i.isExtension) := by
    rw [State.withFetchWord, placeWord, tableWordIsExtension, decodeTableWord_encodeWord]
  rw [hext, Instr.wellFormed]
  cases i.isExtension <;> simp

/-- The two bytes lie at different addresses also at the top of memory, so the second write keeps the first. -/
theorem fetchWord_withFetchWord {s : State} (hs : s.mem.wf = true) (op : Word) : fetchWord (s.withFetchWord 16 op.toNat) = op := by
  have hne : s.pc.toNat % Config.memSize ≠ (s.pc.toNat + 1) % Config.memSize := by rw [Config.memSize]; omega
  have hhi : peek (s.withFetchWord 16 op.toNat) s.pc.toNat = highByte op := by
    refine (peek_poke (poke_wf hs _ _) _ _ _).trans ?_
    rw [if_neg hne, peek_poke hs, if_pos rfl, tableWord_toNat]
  have hlo : peek (s.withFetchWord 16 op.toNat) (s.pc.toNat + 1) = lowByte op := by
    refine (peek_poke (poke_wf hs _ _) _ _ _).trans ?_
    rw [if_pos rfl, tableWord_toNat]
  calc fetchWord (s.withFetchWord 16 op.toNat)
      = wordOfBytes (peek (s.withFetchWord 16 op.toNat) s.pc.toNat) (peek (s.withFetchWord 16 op.toNat) (s.pc.toNat + 1)) := rfl
    _ = op := by rw [hhi, hlo, wordOfBytes_bytes]

/-- Settles O7: the placed word is fetched, and the switch stands so that it decodes. -/
theorem placedInstructionRuns : Obligations.PlacedInstructionRuns := by
  intro i s hs
  refine ⟨decodeTableWord_encodeWord i, step_of_ok rfl ?_, rfl⟩
  rw [fetchWord_withFetchWord hs, decodeWord_encodeWord (wellFormed_withFetchWord i s)]

end Sys2Proof.Machine
end

section
/-! The step with its phases written out (spec/40_step_cycle.md R91 to R96), and the end of a run: a jump to itself steps to its own
state but for the fetch recorded, so that it goes on for ever (spec/41_control_flow.md R102, spec/70_reset_and_hazards.md R218). -/

namespace Sys2Proof.Machine

/-- Settles O8, by the three equations of the step: the word and the state written out are the fetch and the advance
(R42, R43, R91, R92). -/
theorem stepRunsDecodedInstruction : Obligations.StepRunsDecodedInstruction := by
  intro s
  refine ⟨fun c hf => step_of_fault hf, fun hf => ?_⟩
  change (∀ i, decodeWord s.extEF (fetchWord s) = .ok i → step s = exec i (fetchAdvance s)) ∧
    (∀ e, decodeWord s.extEF (fetchWord s) = .error e →
      step s = .next (unimplemented (fetchWord s) s.pc (fetchAdvance s)))
  exact ⟨fun i hd => step_of_ok hf hd, fun e hd => step_of_error hf hd⟩

/-! ### The first step of a run -/

theorem run_of_next {M : Host.Core} {s t : M.State} (h : M.step s = .next t) (k : Nat) : M.run (k + 1) s = M.run k t := by
  rw [Host.Core.run, h]

theorem run_of_fault {M : Host.Core} {s : M.State} {f : M.Fault} (h : M.step s = .fault f) (k : Nat) :
    M.run (k + 1) s = .fault f := by
  rw [Host.Core.run, h]

/-! ### The end of a run -/

/-- An address of memory survives the address field of a jump (R73). -/
theorem addrWord_setWidth {w : Word} (h : w.toNat ≤ 0xFFF) : addrWord (w.setWidth 12) = w := by
  apply BitVec.eq_of_toNat_eq
  rw [addrWord, BitVec.toNat_setWidth, BitVec.toNat_setWidth]
  omega

theorem emit_endedWell {s : State} (h : s.EndedWell) (e : Event) : (emit e s).EndedWell := h

/-- A jump to itself undoes the advance of `PC`: its step only records the fetch (R92, R102). -/
theorem step_of_endedWell {s : State} (h : s.EndedWell) : step s = .next (emit (.fetch s.pc (fetchWord s)) s) := by
  obtain ⟨hf, hpc, hw⟩ := h
  have hd : decodeWord s.extEF (fetchWord s) = .ok (.jp (s.pc.setWidth 12)) := by
    rw [hw]
    exact decodeWord_encodeWord rfl
  calc step s
      = .next (setPc (addrWord (s.pc.setWidth 12)) (fetchAdvance s)) := step_of_ok hf hd
    _ = .next (setPc s.pc (fetchAdvance s)) := by rw [addrWord_setWidth hpc]
    _ = .next (emit (.fetch s.pc (fetchWord s)) s) := rfl

theorem run_of_endedWell (k : Nat) {s : State} (h : s.EndedWell) :
    ∃ t, Sys2Proof.core.run k s = .next t ∧ t.registerFile = s.registerFile ∧ t.mem = s.mem ∧ t.EndedWell := by
  induction k generalizing s with
  | zero => exact ⟨s, rfl, rfl, rfl, h⟩
  | succ k ih =>
    obtain ⟨t, hrun, hregs, hmem, hend⟩ := ih (emit_endedWell h (.fetch s.pc (fetchWord s)))
    exact ⟨t, (run_of_next (M := Sys2Proof.core) (step_of_endedWell h) k).trans hrun, hregs, hmem, hend⟩

/-- Settles O53: the good end by induction on the number of steps, each of which is one more jump to itself; the bad end by its
first step. -/
theorem endOfARunIsFinal : Obligations.EndOfARunIsFinal := by
  refine ⟨fun s k h => run_of_endedWell k h, fun s k h => ?_⟩
  obtain ⟨c, hc⟩ := Option.ne_none_iff_exists'.1 h
  exact ⟨c, hc, run_of_fault (M := Sys2Proof.core) (step_of_fault hc) k⟩

end Sys2Proof.Machine
end

section
/-! Control transfer, one result for each instruction (spec/41_control_flow.md R101 to R108): where `PC` and `SP` are after it, the rest
being the frame of its operations; and call and return inverse to each other over a run (R110). -/

namespace Sys2Proof.Machine

/-! ### `SP` after a push and a pop, as a number -/

theorem pushWord_sp_toNat (w : Word) {s : State} (h : s.sp.toNat < 16) : (pushWord w s h).sp.toNat = s.sp.toNat + 1 := by
  rw [pushWord_sp, BitVec.toNat_add, BitVec.toNat_ofNat]
  omega

theorem popWord_sp_toNat {s : State} (h : 0 < s.sp.toNat ∧ s.sp.toNat ≤ 16) : (popWord s h).2.sp.toNat = s.sp.toNat - 1 := by
  rw [popWord_sp, BitVec.toNat_sub, BitVec.toNat_ofNat]
  omega

/-! ### Jump targets, as numbers -/

theorem addrWord_toNat (addr : Addr) : (addrWord addr).toNat = addr.toNat :=
  BitVec.toNat_setWidth_of_le (by decide)

theorem byteWord_toNat (b : Byte) : (byteWord b).toNat = b.toNat :=
  BitVec.toNat_setWidth_of_le (by decide)

/-- An address and a byte add up to less than 65536, so the sum of an indexed jump never wraps (R104). -/
theorem addrWord_add_byteWord_toNat (addr : Addr) (b : Byte) : (addrWord addr + byteWord b).toNat = addr.toNat + b.toNat := by
  have haddr := addr.isLt
  have hb := b.isLt
  rw [BitVec.toNat_add, addrWord_toNat, byteWord_toNat]
  omega

/-! ### `PC` after a skip on equal or on different bytes -/

theorem skipIf_beq_pc (a b : Byte) (s : State) : (skipIf (a == b) s).pc = if a = b then s.pc + 2#16 else s.pc := by
  simp only [skipIf_eq, setPc_pc, beq_iff_eq]

theorem skipIf_bne_pc (a b : Byte) (s : State) : (skipIf (a != b) s).pc = if a = b then s.pc else s.pc + 2#16 := by
  simp only [skipIf_eq, setPc_pc, bne_iff_ne, ite_not]

/-! ### The results -/

/-- Settles O18. -/
theorem jpResult : Obligations.JpResult := fun addr s => ⟨_, rfl, addrWord_toNat addr, setPc_sameBut _ s⟩

/-- Settles O21. -/
theorem jpV0Result : Obligations.JpV0Result := fun addr s =>
  ⟨_, rfl, addrWord_add_byteWord_toNat addr (readV 0x0#4 s), setPc_sameBut _ s⟩

/-- Settles O22: two skips on equal bytes and two on different ones. -/
theorem skipResults : Obligations.SkipResults := fun _ _ _ s =>
  ⟨⟨_, rfl, skipIf_beq_pc _ _ s, skipIf_sameBut _ s⟩, ⟨_, rfl, skipIf_bne_pc _ _ s, skipIf_sameBut _ s⟩,
    ⟨_, rfl, skipIf_beq_pc _ _ s, skipIf_sameBut _ s⟩, ⟨_, rfl, skipIf_bne_pc _ _ s, skipIf_sameBut _ s⟩⟩

/-- Settles O17: the return is a pop and a jump to the entry popped, or the fault. -/
theorem retResult : Obligations.RetResult := by
  refine ⟨fun s h => ?_, fun s h => ?_⟩
  · exact ⟨_, execRet_of_pos h, popWord_sp_toNat h, rfl, sameBut_seq (popWord_sameBut s h) (setPc_sameBut _ _) (by decide)⟩
  · exact ⟨_, execRet_of_empty h, rfl, rfl, raiseFault_events _ s, raiseFault_sameBut _ s⟩

/-- Settles O19: the call is a push of the advanced `PC` and a jump, or the fault. -/
theorem callResult : Obligations.CallResult := by
  refine ⟨fun addr s h => ?_, fun addr s h => ?_⟩
  · exact ⟨_, execCall_of_lt addr h, rfl, pushWord_sp_toNat s.pc h, addrWord_toNat addr,
      sameBut_seq (pushWord_sameBut s.pc s h) (setPc_sameBut _ _) (by decide)⟩
  · exact ⟨_, execCall_of_full addr h, rfl, rfl, raiseFault_events _ s, raiseFault_sameBut _ s⟩

/-! ### Call and return over a run -/

/-- A stack entry lasts through a run without a call at its index: every step and every move of the host keeps it. -/
theorem RunWithoutCallAt.stack_getElem {k : Nat} {s u : State} (h : RunWithoutCallAt k s u) (hk : k < 16) :
    u.stack[k] = s.stack[k] := by
  obtain ⟨step_keeps, hostAct_keeps⟩ := stepKeepsStackEntry
  induction h with
  | refl s => rfl
  | step s t u hc hs _ ih => exact ih.trans (step_keeps s t k hk hs hc)
  | host s u m hm _ ih => exact ih.trans (hostAct_keeps s m k hk hm)

/-- A call that completes leaves the address after it in the entry at the old `SP` (R92, R103). -/
theorem step_call_stack {s t : State} {addr : Addr} (hsp : s.sp.toNat < 16)
    (hd : decodeWord s.extEF (fetchWord s) = .ok (.call addr)) (h : step s = .next t) :
    t.stack[s.sp.toNat] = s.pc + 2#16 := by
  obtain ⟨hf, -⟩ := step_cases h
  obtain ⟨t', hx, hstack, -⟩ := callResult.1 addr (fetchAdvance s) hsp
  cases h.symm.trans ((step_of_ok hf hd).trans hx)
  simp [hstack]

/-- A return with `SP` one above `k` goes to the entry at `k` and leaves `SP` at `k` (R101). -/
theorem step_ret {u : State} {k : Nat} (hk : k < 16) (hsp : u.sp.toNat = k + 1) (hf : u.fault = none)
    (hd : decodeWord u.extEF (fetchWord u) = .ok .ret) :
    ∃ w, step u = .next w ∧ w.pc = u.stack[k] ∧ w.sp.toNat = k := by
  have hpos : 0 < (fetchAdvance u).sp.toNat ∧ (fetchAdvance u).sp.toNat ≤ 16 := by
    rw [fetchAdvance_sp]
    omega
  obtain ⟨w, hx, hwsp, hwpc, -⟩ := retResult.1 (fetchAdvance u) hpos
  refine ⟨w, (step_of_ok hf hd).trans hx, ?_, ?_⟩
  · simpa [hsp] using hwpc
  · simpa [hsp] using hwsp

/-- Settles O23: the return pops the entry the call pushed, which the run between them kept. -/
theorem callReturnRoundTrip : Obligations.CallReturnRoundTrip := by
  intro s t u addr _ hsp hcall hst hrun hfault husp hret
  obtain ⟨w, hw, hpc, hwsp⟩ := step_ret hsp husp hfault hret
  refine ⟨w, hw, ?_, BitVec.eq_of_toNat_eq hwsp⟩
  calc w.pc
      = u.stack[s.sp.toNat] := hpc
    _ = t.stack[s.sp.toNat] := hrun.stack_getElem hsp
    _ = s.pc + 2#16 := step_call_stack hsp hcall hst

end Sys2Proof.Machine
end

section
/-! Register loads and ALU (spec/42_register_alu.md R121 to R134): the flag computations as numbers, the two orders of result and flag, and
the results, each the value of `V[x]`, the value of `VF` and the frame of the operations. -/

namespace Sys2Proof.Machine

/-! ### Results and flags, as numbers -/

theorem addResult_toNat (a b : Byte) : (addResult a b).toNat = (a.toNat + b.toNat) % 256 := by
  rw [addResult_eq, BitVec.toNat_add]

theorem subResult_toNat (a b : Byte) : (subResult a b).toNat = (a.toNat + 256 - b.toNat) % 256 := by
  have hb := b.isLt
  rw [subResult, BitVec.toNat_sub]
  omega

theorem shiftRight1_toNat (a : Byte) : (shiftRight1 a).toNat = a.toNat / 2 := by
  rw [shiftRight1, BitVec.toNat_ushiftRight, Nat.shiftRight_eq_div_pow, pow_one]

theorem shiftOutRight_toNat (a : Byte) : (shiftOutRight a).toNat = a.toNat % 2 := by
  rw [shiftOutRight, BitVec.toNat_and]
  exact Nat.and_one_is_mod a.toNat

theorem shiftLeft1_toNat (a : Byte) : (shiftLeft1 a).toNat = a.toNat * 2 % 256 := by
  rw [shiftLeft1, BitVec.toNat_shiftLeft, Nat.shiftLeft_eq, pow_one]

theorem shiftOutLeft_toNat (a : Byte) : (shiftOutLeft a).toNat = a.toNat / 128 := by
  have ha := a.isLt
  have hshift : (shiftOutLeft a).toNat = a.toNat / 128 &&& 1 := by
    rw [shiftOutLeft, BitVec.toNat_ushiftRight, BitVec.toNat_and, Nat.shiftRight_and_distrib, Nat.shiftRight_eq_div_pow]
    rfl
  rw [hshift, Nat.and_one_is_mod]
  omega

/-- The carry as the byte `VF` receives (R127). -/
theorem flagByte_addCarry (a b : Byte) : flagByte (addCarry a b) = if 256 ≤ a.toNat + b.toNat then 1#8 else 0#8 := by
  simp only [flagByte, addCarry_eq, decide_eq_true_eq]

/-- NOT borrow as the byte `VF` receives, 1 on equal operands (R128, R130). -/
theorem flagByte_notBorrow (a b : Byte) : flagByte (notBorrow a b) = if b.toNat ≤ a.toNat then 1#8 else 0#8 := by
  simp only [flagByte, notBorrow, decide_eq_true_eq]

/-- A flag byte of 1 or 0 is the number 1 or 0, the form of Table R134. -/
theorem toNat_of_flag {b : Byte} {c : Prop} [Decidable c] (h : b = if c then 1#8 else 0#8) : b.toNat = if c then 1 else 0 := by
  rw [h, apply_ite BitVec.toNat]
  rfl

/-! ### One register written -/

/-- Writing `V[x]` leaves every other register and every other part of the state (R9). -/
theorem writeV_only (x : Nibble) (b : Byte) (s : State) :
    (∀ z, z ≠ x → readV z (writeV x b s) = readV z s) ∧ s.SameBut [.v] (writeV x b s) :=
  ⟨fun _ hz => readV_writeV_of_ne hz b s, writeV_sameBut x b s⟩

theorem readV_combineV_self (f : Byte → Byte → Byte) (x y : Nibble) (s : State) :
    readV x (combineV f x y s) = f (readV x s) (readV y s) := readV_writeV_self x _ s

/-! ### Result first, flag last -/

section
variable (r f : Byte) (s : State)

theorem vf_writeResultThenFlag (x : Nibble) : vf (writeResultThenFlag x r f s) = f := readV_writeV_self 0xF#4 f _

theorem readV_writeResultThenFlag_self {x : Nibble} (hx : x ≠ 0xF#4) : readV x (writeResultThenFlag x r f s) = r := by
  rw [readV_writeResultThenFlag, if_neg hx, if_pos rfl]

/-- The add and subtract instructions write `V[x]` and `VF` alone. -/
theorem writeResultThenFlag_only (x : Nibble) :
    (∀ z, z ≠ x → z ≠ 0xF#4 → readV z (writeResultThenFlag x r f s) = readV z s) ∧
      s.SameBut [.v] (writeResultThenFlag x r f s) := by
  refine ⟨fun z hx hF => ?_, writeResultThenFlag_sameBut x r f s⟩
  rw [readV_writeResultThenFlag, if_neg hF, if_neg hx]

end

/-! ### Flag first, shift last -/

section
variable (f : Byte) (g : Byte → Byte) (s : State)

theorem vf_writeFlagThenShift_of_ne {x : Nibble} (hx : x ≠ 0xF#4) : vf (writeFlagThenShift x f g s) = f := by
  rw [vf_eq, readV_writeFlagThenShift, if_neg hx.symm, if_pos rfl]

theorem readV_writeFlagThenShift_self {x : Nibble} (hx : x ≠ 0xF#4) :
    readV x (writeFlagThenShift x f g s) = g (readV x s) := by
  rw [readV_writeFlagThenShift, if_pos rfl, if_neg hx]

/-- With `x = F` the shift acts on the flag just written, not on the old `VF` (R134). -/
theorem vf_writeFlagThenShift_F : vf (writeFlagThenShift 0xF#4 f g s) = g f := by
  rw [vf_eq, readV_writeFlagThenShift, if_pos rfl, if_pos rfl]

/-- The shift instructions write `V[x]` and `VF` alone. -/
theorem writeFlagThenShift_only (x : Nibble) :
    (∀ z, z ≠ x → z ≠ 0xF#4 → readV z (writeFlagThenShift x f g s) = readV z s) ∧
      s.SameBut [.v] (writeFlagThenShift x f g s) := by
  refine ⟨fun z hx hF => ?_, writeFlagThenShift_sameBut x f g s⟩
  rw [readV_writeFlagThenShift, if_neg hx, if_neg hF]

end

/-- SHR of `VF` itself: the flag, 0 or 1, shifted out to 0 (R134). -/
theorem shiftRight1_shiftOutRight (a : Byte) : shiftRight1 (shiftOutRight a) = 0#8 := by
  apply BitVec.eq_of_toNat_eq
  rw [shiftRight1_toNat, shiftOutRight_toNat, BitVec.toNat_ofNat]
  omega

/-- SHL of `VF` itself: the flag, 0 or 1, doubled (R134). -/
theorem shiftLeft1_shiftOutLeft_toNat (a : Byte) : (shiftLeft1 (shiftOutLeft a)).toNat = 2 * (a.toNat / 128) := by
  have ha := a.isLt
  rw [shiftLeft1_toNat, shiftOutLeft_toNat]
  omega

/-! ### The results -/

/-- Settles O24: three writes of one register. -/
theorem loadAndAddImmediateResults : Obligations.LoadAndAddImmediateResults := by
  intro x y kk s
  refine ⟨⟨_, rfl, readV_writeV_self x _ s, writeV_only x _ s⟩, ⟨_, rfl, ?_, writeV_only x _ s⟩,
    ⟨_, rfl, readV_writeV_self x _ s, writeV_only x _ s⟩⟩
  rw [readV_writeV_self, addResult_toNat]

/-- Settles O25: three combinations of two registers, each operation bit by bit. -/
theorem logicResults : Obligations.LogicResults := by
  intro x y s
  refine ⟨⟨_, rfl, fun k => ?_, writeV_only x _ s⟩, ⟨_, rfl, fun k => ?_, writeV_only x _ s⟩,
    ⟨_, rfl, fun k => ?_, writeV_only x _ s⟩⟩
  · rw [readV_combineV_self, BitVec.getLsbD_or]
  · rw [readV_combineV_self, BitVec.getLsbD_and]
  · rw [readV_combineV_self, BitVec.getLsbD_xor]

/-- Settles O26. -/
theorem addRegResult : Obligations.AddRegResult := by
  intro x y s
  refine ⟨_, rfl, fun hx => ?_, ?_, writeResultThenFlag_only _ _ s x⟩
  · rw [readV_writeResultThenFlag_self _ _ s hx, addResult_toNat]
  · rw [vf_writeResultThenFlag, flagByte_addCarry]

/-- Settles O27: SUBN is SUB with the operands exchanged. -/
theorem subtractResults : Obligations.SubtractResults := by
  intro x y s
  refine ⟨⟨_, rfl, fun hx => ?_, ?_, writeResultThenFlag_only _ _ s x⟩,
    ⟨_, rfl, fun hx => ?_, ?_, writeResultThenFlag_only _ _ s x⟩⟩
  · rw [readV_writeResultThenFlag_self _ _ s hx, subResult_toNat]
  · rw [vf_writeResultThenFlag, flagByte_notBorrow]
  · rw [readV_writeResultThenFlag_self _ _ s hx, subResult_toNat]
  · rw [vf_writeResultThenFlag, flagByte_notBorrow]

/-- Settles O28: with `x` other than F the order does not matter, with `x = F` the flag itself is shifted. -/
theorem shiftResults : Obligations.ShiftResults := by
  intro x y s
  refine ⟨⟨_, rfl, fun hx => ⟨?_, ?_⟩, ?_, writeFlagThenShift_only _ _ s x⟩,
    ⟨_, rfl, fun hx => ⟨?_, ?_⟩, ?_, writeFlagThenShift_only _ _ s x⟩⟩
  · rw [readV_writeFlagThenShift_self _ _ s hx, shiftRight1_toNat]
  · rw [vf_writeFlagThenShift_of_ne _ _ s hx, shiftOutRight_toNat]
  · rintro rfl
    rw [vf_writeFlagThenShift_F, shiftRight1_shiftOutRight]
  · rw [readV_writeFlagThenShift_self _ _ s hx, shiftLeft1_toNat]
  · rw [vf_writeFlagThenShift_of_ne _ _ s hx, shiftOutLeft_toNat]
  · rintro rfl
    rw [vf_writeFlagThenShift_F, shiftLeft1_shiftOutLeft_toNat, vf_eq]

/-! ### `VF` as an operand (Table R134) -/

section
variable (y : Nibble) (s : State)

/-- SHR of `VF` leaves 0, whatever the ignored field `y` (R134). -/
theorem exec_shr_F : ∃ t, exec (.shr 0xF#4 y) s = .next t ∧ (vf t).toNat = 0 := by
  obtain ⟨⟨t, ht, -, hF, -⟩, -⟩ := shiftResults 0xF#4 y s
  exact ⟨t, ht, by rw [hF rfl, BitVec.toNat_ofNat]⟩

/-- SHL of `VF` leaves twice its old bit 7, whatever the ignored field `y` (R134). -/
theorem exec_shl_F : ∃ t, exec (.shl 0xF#4 y) s = .next t ∧ (vf t).toNat = if 128 ≤ (vf s).toNat then 2 else 0 := by
  obtain ⟨-, t, ht, -, hF, -⟩ := shiftResults 0xF#4 y s
  have hlt := (vf s).isLt
  refine ⟨t, ht, ?_⟩
  rw [hF rfl]
  split <;> omega

end

/-- Settles O29: each cell is the instruction's own result at `x = F`, `y = F` or both. -/
theorem flagRegisterAsOperand : Obligations.FlagRegisterAsOperand := by
  intro r s hr f v hf hv
  subst hf hv
  refine ⟨⟨?_, ?_, ?_, exec_shr_F r s, exec_shl_F r s⟩, ⟨?_, ?_, ?_, ?_, ?_⟩,
    ⟨?_, ?_, ?_, exec_shr_F 0xF#4 s, exec_shl_F 0xF#4 s⟩⟩
  -- `x = F`: the result is lost, the flag stays.
  · exact (addRegResult 0xF#4 r s).imp fun _ ⟨ht, _, hflag, _⟩ => ⟨ht, toNat_of_flag hflag⟩
  · exact (subtractResults 0xF#4 r s).1.imp fun _ ⟨ht, _, hflag, _⟩ => ⟨ht, toNat_of_flag hflag⟩
  · exact (subtractResults 0xF#4 r s).2.imp fun _ ⟨ht, _, hflag, _⟩ => ⟨ht, toNat_of_flag hflag⟩
  -- `y = F`: both operands are read before the flag is written.
  · exact (addRegResult r 0xF#4 s).imp fun _ ⟨ht, hres, hflag, _⟩ => ⟨ht, hres hr, toNat_of_flag hflag⟩
  · exact (subtractResults r 0xF#4 s).1.imp fun _ ⟨ht, hres, hflag, _⟩ => ⟨ht, hres hr, toNat_of_flag hflag⟩
  · exact (subtractResults r 0xF#4 s).2.imp fun _ ⟨ht, hres, hflag, _⟩ => ⟨ht, hres hr, toNat_of_flag hflag⟩
  · exact (shiftResults r 0xF#4 s).1.imp fun _ ⟨ht, hres, _⟩ => ⟨ht, hres hr⟩
  · exact (shiftResults r 0xF#4 s).2.imp fun _ ⟨ht, hres, _⟩ => ⟨ht, hres hr⟩
  -- `x = y = F`: the operands are equal.
  · have half : 256 ≤ (vf s).toNat + (vf s).toNat ↔ 128 ≤ (vf s).toNat := by omega
    exact (addRegResult 0xF#4 0xF#4 s).imp fun _ ⟨ht, _, hflag, _⟩ => ⟨ht, (toNat_of_flag hflag).trans (if_congr half rfl rfl)⟩
  · exact (subtractResults 0xF#4 0xF#4 s).1.imp fun _ ⟨ht, _, hflag, _⟩ => ⟨ht, (toNat_of_flag hflag).trans (if_pos le_rfl)⟩
  · exact (subtractResults 0xF#4 0xF#4 s).2.imp fun _ ⟨ht, _, hflag, _⟩ => ⟨ht, (toNat_of_flag hflag).trans (if_pos le_rfl)⟩

/-! ### Index load and random byte -/

/-- Settles O30: of the instructions that write `I` only the index load is no extension. -/
theorem ldIResult : Obligations.LdIResult := by
  refine ⟨fun addr s => ⟨_, rfl, addrWord_toNat addr, setI_sameBut _ s⟩, fun i s t hi hne h => ?_⟩
  have hw : .i ∉ writes i := by
    rw [i_mem_writes]
    rintro (⟨addr, rfl⟩ | ⟨x, rfl⟩ | ⟨x, rfl⟩)
    · exact hne addr rfl
    · cases hi
    · cases hi
  exact (exec_sameBut h).i_eq hw

/-- A scripted answer is the byte drawn (R60, log entry 10). -/
theorem randomByte_scripted {s : State} {b : Byte} {rest : List Byte} (h : s.sources.random.script = b :: rest) :
    (randomByte s).1 = b :=
  congrArg Prod.fst (draw_scripted Config.randomByte h)

/-- Settles O31: one draw, then one register written with the byte masked. -/
theorem rndResult : Obligations.RndResult := by
  intro x kk s
  have hres : readV x (writeV x ((randomByte s).1 &&& kk) (randomByte s).2) = (randomByte s).1 &&& kk := readV_writeV_self x _ _
  refine ⟨_, (randomByte s).1, rfl, hres, ?_, randomByte_events s, fun b rest => randomByte_scripted,
    draw_drawn Config.randomByte s.sources.random, rfl, rfl, rfl, rfl, (writeV_only x _ _).1, ?_⟩
  · rw [hres, BitVec.and_assoc, BitVec.and_not_self]
    exact BitVec.and_zero
  · exact sameBut_seq (randomByte_sameBut s) (writeV_sameBut x _ _) (by decide)

end Sys2Proof.Machine
end

section
/-! The display instructions (spec/43_display.md R140 to R142): the answers a source gives one after the other, what they make of `VF`, the
history and the sources along the rows of a sprite, and the two results. -/

namespace Sys2Proof.Machine

/-! ### Several answers of one source (log entry 10) -/

section
variable {α : Type} (free : Nat → α) (src : Source α)

/-- Answer number `k` from here: a scripted one while the script lasts, then the free value of its number. -/
def Source.answer (k : Nat) : α := src.script[k]?.getD (free (src.drawn + k))

/-- The next `n` answers, first first. -/
def Source.answers (n : Nat) : List α := (List.range n).map (src.answer free)

/-- A source after `n` answers have been drawn from it. -/
def Source.afterMany (n : Nat) : Source α := ⟨src.script.drop n, src.drawn + n⟩

theorem draw_fst : (src.draw free).1 = src.answer free 0 := by
  obtain ⟨h, e⟩ | ⟨a, rest, h, e⟩ := draw_cases free src <;> simp [Source.answer, e, h]

theorem answer_afterMany (n k : Nat) : (src.afterMany n).answer free k = src.answer free (n + k) := by
  simp [Source.answer, Source.afterMany, Nat.add_assoc]

theorem draw_afterMany (n : Nat) : (src.afterMany n).draw free = (src.answer free n, src.afterMany (n + 1)) := by
  have hfst : ((src.afterMany n).draw free).1 = src.answer free n := by rw [draw_fst, answer_afterMany, Nat.add_zero]
  have hsnd : ((src.afterMany n).draw free).2 = src.afterMany (n + 1) := by
    rw [draw_snd]
    simp [Source.afterMany, Nat.add_assoc]
  exact Prod.ext hfst hsnd

theorem length_answers (n : Nat) : (src.answers free n).length = n := by simp [Source.answers]

theorem answers_succ (n : Nat) : src.answers free (n + 1) = src.answers free n ++ [src.answer free n] := by
  simp [Source.answers, List.range_succ]

/-- As long as the script reaches, the answers are the scripted ones. -/
theorem answers_scripted {as rest : List α} (h : src.script = as ++ rest) : src.answers free as.length = as := by
  refine List.ext_getElem (length_answers free src _) fun k _ hk => ?_
  simp [Source.answers, Source.answer, h, List.getElem?_append_left hk, List.getElem?_eq_getElem hk]

end

/-! ### One row -/

/-- A row takes one answer of the Display and touches no other source. -/
theorem drawRow_sources (xp yp : Byte) (r : Nat) (s : State) :
    (drawRow xp yp r s).sources = { s.sources with collision := (s.sources.collision.draw Config.collision).2 } := by
  rw [drawRow_eq]
  split <;> rfl

/-- A row with a collision sets `VF`; one without leaves it as the rows before made it. -/
theorem vf_drawRow (xp yp : Byte) (r : Nat) (s : State) :
    vf (drawRow xp yp r s) = if (s.sources.collision.draw Config.collision).1 then 1#8 else vf s := by
  rw [drawRow_eq]
  split
  · exact readV_writeV_self 0xF#4 1#8 _
  · exact (askRow_sameBut xp yp r s).readV_eq (by decide) 0xF#4

/-! ### The rows of a sprite -/

section
variable (xp yp : Byte) (n : Nat) (s : State)

theorem drawRows_sources :
    (forUpTo n (drawRow xp yp) s).sources = { s.sources with collision := s.sources.collision.afterMany n } := by
  induction n with
  | zero => rfl
  | succ n ih => rw [forUpTo_succ, drawRow_sources, ih, draw_afterMany]

/-- The answer that row number `n` is drawn with is the Display's answer number `n`. -/
theorem drawRows_answer :
    ((forUpTo n (drawRow xp yp) s).sources.collision.draw Config.collision).1 = s.sources.collision.answer Config.collision n := by
  rw [drawRows_sources, draw_afterMany]

/-- `VF` is set by any collision among the rows, and no later row takes it back (R142). -/
theorem vf_drawRows : vf (forUpTo n (drawRow xp yp) s) =
    if true ∈ s.sources.collision.answers Config.collision n then 1#8 else vf s := by
  induction n with
  | zero => rfl
  | succ n ih =>
    rw [forUpTo_succ, vf_drawRow, drawRows_answer, ih, answers_succ]
    cases s.sources.collision.answer Config.collision n <;> simp

/-- The history of `drawRows_events` with its answers named. -/
theorem drawRows_events_answers : (forUpTo n (drawRow xp yp) s).events =
    s.events ++ drawTransactions s xp yp (s.sources.collision.answers Config.collision n) := by
  induction n with
  | zero => exact (List.append_nil _).symm
  | succ n ih =>
    have hframe : s.SameBut _ (forUpTo n (drawRow xp yp) s) := forUpTo_sameBut (drawRow_sameBut xp yp) n s
    rw [forUpTo_succ, drawRow_events, drawRows_answer, ih, indexAddr, hframe.i_eq (by decide), hframe.peek_eq (by decide),
      answers_succ, drawTransactions_concat, length_answers, List.append_assoc]

end

/-! ### The results -/

/-- Settles O32: the meaning is the one transaction. -/
theorem clsResult : Obligations.ClsResult := fun s => ⟨_, rfl, dispClear_events s, emit_sameBut _ s⟩

/-- Settles O33: the rows start from the state with `VF` cleared, and their answers are the Display's next `n`. -/
theorem drwResult : Obligations.DrwResult := by
  intro x y n s
  have hexec : exec (.drw x y n) s =
      .next (dispUpdate (forUpTo n.toNat (drawRow (readV x s) (readV y s)) (writeVF 0#8 s))) := rfl
  have hsources := drawRows_sources (readV x s) (readV y s) n.toNat (writeVF 0#8 s)
  refine ⟨_, s.sources.collision.answers Config.collision n.toNat, hexec, length_answers _ _ _, ?flag, ?history, ?scripted,
    congrArg (·.collision.drawn) hsources, congrArg (·.random) hsources, congrArg (·.key) hsources, congrArg (·.wait) hsources,
    congrArg (·.delay) hsources, fun z hz => exec_readV hexec (by simpa [writesV] using hz), exec_sameBut hexec⟩
  case flag =>
    have hcleared : vf (writeVF 0#8 s) = 0#8 := readV_writeV_self 0xF#4 0#8 s
    have hrows := vf_drawRows (readV x s) (readV y s) n.toNat (writeVF 0#8 s)
    rwa [hcleared] at hrows
  case history =>
    rw [dispUpdate_events, drawRows_events_answers]
    rfl
  case scripted =>
    intro answers rest h hlen
    rw [← hlen]
    exact answers_scripted _ _ h

end Sys2Proof.Machine
end

section
/-! The switch `EXT_EF` (spec/44_optional_ef_extension.md R150, R163) and the instructions of the extension that store nothing: key skips,
counters, key wait and index operations (R152 to R159). -/

namespace Sys2Proof.Machine

/-! ### The switch -/

theorem wellFormed_true (i : Instr) : i.wellFormed true = true := Bool.or_true _

/-- What a machine without the extension decodes, one with it decodes alike. -/
theorem decodeWord_true_of_false {op : Word} {i : Instr} (h : decodeWord false op = .ok i) : decodeWord true op = .ok i := by
  have hback := decodeWord_encodeWord (wellFormed_true i)
  rwa [encodeWord_of_decodeWord h] at hback

theorem wellFormed_false_of_baseline {i : Instr} (h : i.isExtension = false) : i.wellFormed false = true := by
  rw [Instr.wellFormed, h]; rfl

/-- Outside the eleven patterns the switch makes no difference to which words are unimplemented (R163). -/
theorem unimplementedWith_of_not_extensionWord (ext : Bool) {w : Nat} (h : extensionWord w = false) :
    unimplementedWith ext w = unimplementedR77 w := by
  rw [unimplementedWith, h, Bool.and_false, Bool.not_false, Bool.and_true]

/-- With the switch on a word of the eleven patterns is implemented (R163). -/
theorem unimplementedWith_true_of_extensionWord {w : Nat} (h : extensionWord w = true) : unimplementedWith true w = false := by
  rw [unimplementedWith, h, Bool.and_true, Bool.not_true, Bool.and_false]

/-- The words `Exxx` and `Fxxx` stand in Table R77 (R150). -/
theorem unimplementedR77_of_le {op : Word} (h : 0xE ≤ op.toNat / 4096) : unimplementedR77 op.toNat = true := by
  have hlt := op.isLt
  obtain hE | hF : op.toNat / 4096 = 0xE ∨ op.toNat / 4096 = 0xF := by omega
  · simp [unimplementedR77, hE]
  · simp [unimplementedR77, hF]

theorem le_of_extensionWord {w : Nat} (h : extensionWord w = true) : 0xE ≤ w / 4096 := by
  simp only [extensionWord, Bool.or_eq_true, Bool.and_eq_true, beq_iff_eq] at h
  omega

theorem decodeWord_false_of_le {op : Word} (h : 0xE ≤ op.toNat / 4096) : decodeWord false op = .error (.unimplemented op) := by
  rw [decodeWord_unimplemented_iff, unimplementedWith_false]
  exact unimplementedR77_of_le h

/-- Settles O6: what the machine with the switch on decodes beyond the other is an instruction of the extension, and a word outside the
eleven patterns is unimplemented for both machines or for neither. -/
theorem extensionSwitch : Obligations.ExtensionSwitch := by
  refine ⟨rfl, fun op => decodeWord_false_of_le, fun op hop => ?_, fun op hop => ?_⟩
  · have hoff := decodeWord_false_of_le (le_of_extensionWord hop)
    obtain ⟨i, hi⟩ | herr := decodeWord_ok_or_unimplemented true op
    · refine ⟨i, hi, ?_⟩
      by_contra hbase
      have hback := decodeWord_encodeWord (wellFormed_false_of_baseline (Bool.eq_false_iff.2 hbase))
      rw [encodeWord_of_decodeWord hi, hoff] at hback
      cases hback
    · rw [decodeWord_unimplemented_iff, unimplementedWith_true_of_extensionWord hop] at herr
      cases herr
  · obtain ⟨i, hi⟩ | herr := decodeWord_ok_or_unimplemented false op
    · rw [hi, decodeWord_true_of_false hi]
    · rw [herr, decodeWord_unimplemented_iff, unimplementedWith_of_not_extensionWord true hop,
        ← unimplementedWith_of_not_extensionWord false hop, ← decodeWord_unimplemented_iff]
      exact herr

/-! ### Answers -/

theorem State.SameBut.sources_eq {l : List Part} {s t : State} (h : s.SameBut l t) (hl : .sources ∉ l) : t.sources = s.sources := by
  obtain ⟨-, -, -, -, -, -, -, hsources, -⟩ := h
  exact hsources.resolve_left hl

theorem draw_fst_scripted {α : Type} (free : Nat → α) {src : Source α} (a : α) (rest : List α) (h : src.script = a :: rest) :
    (src.draw free).1 = a := congrArg Prod.fst (draw_scripted free h)

theorem keyPressed_sources_afterOne (k : Byte) (s : State) :
    (keyPressed k s).2.sources = { s.sources with key := s.sources.key.afterOne } :=
  congrArg (fun src => { s.sources with key := src }) (draw_snd Config.keyPressed s.sources.key)

theorem waitKey_sources_afterOne (s : State) : (waitKey s).2.sources = { s.sources with wait := s.sources.wait.afterOne } :=
  congrArg (fun src => { s.sources with wait := src }) (draw_snd Config.waitKey s.sources.wait)

theorem timerReadDelay_sources_afterOne (s : State) :
    (timerReadDelay s).2.sources = { s.sources with delay := s.sources.delay.afterOne } :=
  congrArg (fun src => { s.sources with delay := src }) (draw_snd Config.hostDelay s.sources.delay)

/-- The counter read is the one the host set, or the one last held when the host left it (R154, log entry 9). -/
theorem timerReadDelay_scripted {s : State} {act : Option Byte} {rest : List (Option Byte)}
    (h : s.sources.delay.script = act :: rest) : (timerReadDelay s).1 = act.getD s.delay :=
  congrArg (Option.getD · s.delay) (draw_fst_scripted Config.hostDelay act rest h)

/-! ### Keys and counters -/

/-- What a skip after the question for a key leaves: one question, one answer drawn, and `PC` as the skip makes it (R152, R153). -/
theorem skipIf_keyPressed (c : Bool) (k : Byte) (s : State) :
    (skipIf c (keyPressed k s).2).pc = (if c then s.pc + 2#16 else s.pc) ∧
      (skipIf c (keyPressed k s).2).events = s.events ++ [.keyPressed k (keyPressed k s).1] ∧
      (skipIf c (keyPressed k s).2).sources = { s.sources with key := s.sources.key.afterOne } := by
  rw [skipIf_eq]
  exact ⟨rfl, rfl, keyPressed_sources_afterOne k s⟩

/-- Settles O35: the question, then a skip on the answer or on its opposite. -/
theorem keySkipResults : Obligations.KeySkipResults := by
  intro x s
  have hscript := draw_fst_scripted Config.keyPressed (src := s.sources.key)
  constructor
  · obtain ⟨hpc, hevents, hsources⟩ := skipIf_keyPressed (keyPressed (readV x s) s).1 (readV x s) s
    exact ⟨_, (keyPressed (readV x s) s).1, rfl, hpc, hevents, hscript, hsources, exec_sameBut (i := .skp x) rfl⟩
  · obtain ⟨hpc, hevents, hsources⟩ := skipIf_keyPressed (!(keyPressed (readV x s) s).1) (readV x s) s
    refine ⟨_, (keyPressed (readV x s) s).1, rfl, hpc.trans ?_, hevents, hscript, hsources, exec_sameBut (i := .sknp x) rfl⟩
    cases (keyPressed (readV x s) s).1 <;> rfl

/-- Settles O36. -/
theorem timerReadResult : Obligations.TimerReadResult := fun x s =>
  ⟨_, (timerReadDelay s).1, rfl, readV_writeV_self x _ _, rfl, rfl, fun _ => timerReadDelay_scripted,
    fun _ _ => timerReadDelay_scripted, timerReadDelay_sources_afterOne s, (writeV_only x _ _).1, exec_sameBut (i := .ldVxDt x) rfl⟩

/-- Settles O37: the question, then `takeKey` on the answer. -/
theorem keyWaitResult : Obligations.KeyWaitResult := by
  intro x s
  refine ⟨_, (waitKey s).1, rfl, takeKey_events x _ _, draw_fst_scripted Config.waitKey, ?_, fun hkey => ?_, fun k hkey => ?_⟩
  · rw [(takeKey_sameBut x _ _).sources_eq (by decide), waitKey_sources_afterOne]
  · rw [hkey]
    exact ⟨rfl, sameBut_seq (waitKey_sameBut s) (setPc_sameBut _ _) (by decide)⟩
  · rw [hkey]
    refine ⟨?_, (writeV_only x _ _).1, sameBut_seq (waitKey_sameBut s) (writeV_sameBut x _ _) (by decide)⟩
    exact (congrArg BitVec.toNat (readV_writeV_self x _ _)).trans (BitVec.toNat_setWidth_of_le (by decide))

/-- Settles O38. -/
theorem timerWriteResults : Obligations.TimerWriteResults := fun x _ =>
  ⟨⟨_, rfl, rfl, rfl, exec_sameBut (i := .ldDtVx x) rfl⟩, ⟨_, rfl, rfl, rfl, exec_sameBut (i := .ldStVx x) rfl⟩⟩

/-! ### The index register -/

theorem and_0F_toNat (b : Byte) : (b &&& 0x0F#8).toNat = b.toNat % 16 :=
  (BitVec.toNat_and b 0x0F#8).trans (Nat.and_two_pow_sub_one_eq_mod b.toNat 4)

/-- Settles O39. -/
theorem indexResults : Obligations.IndexResults := by
  refine fun x s => ⟨⟨_, rfl, ?_, setI_sameBut _ s⟩, ⟨_, rfl, ?_, setI_sameBut _ s⟩⟩
  · rw [setI_i, BitVec.toNat_add, byteWord_toNat]
  · rw [setI_i, BitVec.toNat_add, BitVec.toNat_mul, byteWord_toNat, and_0F_toNat, BitVec.toNat_ofNat, Nat.add_mod_mod]

end Sys2Proof.Machine
end

section
/-! The stores and loads of the extension (spec/44_optional_ef_extension.md R160 to R162) and the fetch that sees a store (R164). -/

namespace Sys2Proof.Machine

/-- Addresses that wrap to the same one hold the same byte (R42). -/
theorem peek_congr {a c : Nat} (h : a % 4096 = c % 4096) (s : State) : peek s a = peek s c := congrArg s.mem.read h

/-! ### Storing upward from `I` -/

/-- A walk of stores that starts from `s` stores `b 0`, `b 1` and so on: no byte depends on the bytes stored before it. -/
def State.StoresBytes (s : State) (f : Nat → State → Byte) (b : Nat → Byte) : Prop :=
  ∀ k t, s.SameBut [.mem, .events] t → f k t = b k

/-- `Fx55` stores the registers as they are before it: storing changes none. -/
theorem storesBytes_registers (s : State) :
    s.StoresBytes (fun k t => readV (BitVec.ofNat 4 k) t) (fun k => readV (BitVec.ofNat 4 k) s) :=
  fun _ _ h => h.readV_eq (by decide) _

/-- `Fx33` stores the digits of a byte read before the walk. -/
theorem storesBytes_digits (d : Byte) (s : State) : s.StoresBytes (fun k _ => bcdDigit d k) (bcdDigit d) := fun _ _ _ => rfl

section
variable {f : Nat → State → Byte} {b : Nat → Byte} {s : State} (hf : s.StoresBytes f b)
include hf

theorem storeUp_succ (n : Nat) : storeUp f (n + 1) s = memWrite (s.i.toNat + n) (b n) (storeUp f n s) := by
  have hframe := storeUp_sameBut f n s
  rw [storeUp, forUpTo_succ, ← storeUp, hf n _ hframe, indexAddr, hframe.i_eq (by decide)]

theorem storeUp_events (n : Nat) :
    (storeUp f n s).events = s.events ++ (List.range n).map fun k => .memWrite (s.i.toNat + k) (b k) := by
  induction n with
  | zero => exact (List.append_nil _).symm
  | succ n ih => rw [storeUp_succ hf, memWrite_events, ih, List.append_assoc, List.range_succ, List.map_append]; rfl

/-- Of at most 4096 bytes none is overwritten by a later one, so each lies at its place, wrapped. -/
theorem peek_storeUp (hs : s.mem.wf = true) {n k : Nat} (hn : n ≤ 4096) (hk : k < n) :
    peek (storeUp f n s) (s.i.toNat + k) = b k := by
  induction n with
  | zero => cases hk
  | succ n ih =>
    rw [storeUp_succ hf, peek_memWrite (storeUp_wf f n hs), Config.memSize]
    obtain rfl | hlt := Nat.eq_or_lt_of_le (Nat.le_of_lt_succ hk)
    · exact if_pos rfl
    · rw [if_neg (by omega)]
      exact ih (by omega) hlt

/-- Two bytes stored where the next instruction lies are the word fetched (R164). -/
theorem fetchWord_storeUp (hs : s.mem.wf = true) {n k : Nat} (hn : n ≤ 4096) (hk : k + 1 < n)
    (hpc : s.pc.toNat % 4096 = (s.i.toNat + k) % 4096) : fetchWord (storeUp f n s) = wordOfBytes (b k) (b (k + 1)) := by
  rw [fetchWord, (storeUp_sameBut f n s).pc_eq (by decide), peekWord, peek_congr hpc, peek_storeUp hf hs hn (by omega),
    peek_congr (c := s.i.toNat + (k + 1)) (by omega), peek_storeUp hf hs hn hk]

end

/-! ### The results of the stores -/

theorem bcdDigit_zero_toNat (d : Byte) : (bcdDigit d 0).toNat = d.toNat / 100 := by
  have := d.isLt
  exact Nat.mod_eq_of_lt (by omega)

theorem bcdDigit_one_toNat (d : Byte) : (bcdDigit d 1).toNat = d.toNat / 10 % 10 := Nat.mod_eq_of_lt (by omega)

theorem bcdDigit_two_toNat (d : Byte) : (bcdDigit d 2).toNat = d.toNat % 10 := Nat.mod_eq_of_lt (by omega)

/-- Settles O40: the three bytes are the digits, as numbers the decimal ones. -/
theorem bcdResult : Obligations.BcdResult := by
  intro x s hs
  have hdigits := storesBytes_digits (readV x s) s
  have hat {k : Nat} (hk : k < 3) := peek_storeUp hdigits hs (by decide) hk
  have h0 : peek (storeUp _ 3 s) s.i.toNat = _ := hat (k := 0) (by decide)
  have h1 := hat (k := 1) (by decide)
  have h2 := hat (k := 2) (by decide)
  refine ⟨_, execLdB_eq x s, ?_, ?_, ?_, fun a => peek_storeUp_of_ne _, ?_, storeUp_sameBut _ _ s⟩
  · rw [h0, bcdDigit_zero_toNat]
  · rw [h1, bcdDigit_one_toNat]
  · rw [h2, bcdDigit_two_toNat]
  · rw [h0, h1, h2]
    exact storeUp_events hdigits 3

/-- Settles O41. -/
theorem storeRegistersResult : Obligations.StoreRegistersResult := by
  intro x s hs
  have hx := x.isLt
  refine ⟨_, execStRegs_eq x s, fun k hk => ?_, fun a ha => peek_storeUp_of_ne _ fun k hk => ha k (Nat.le_of_lt_succ hk),
    storeUp_events (storesBytes_registers s) _, storeUp_sameBut _ _ s⟩
  have hbyte := peek_storeUp (storesBytes_registers s) hs (n := x.toNat + 1) (by omega) (Nat.lt_succ_of_le hk)
  rwa [BitVec.ofNat_toNat, BitVec.setWidth_eq] at hbyte

/-- Settles O43: a store of registers from number `k` on, or of digits from the first on, covers the next word. -/
theorem storeSeenByNextFetch : Obligations.StoreSeenByNextFetch := by
  intro x s hs
  have hx := x.isLt
  refine ⟨fun t ht k hk hpc => ?_, fun t ht hpc => ?_⟩
  · cases ht
    exact fetchWord_storeUp (storesBytes_registers s) hs (n := x.toNat + 1) (by omega) (Nat.lt_succ_of_le hk) hpc
  · cases ht
    exact fetchWord_storeUp (storesBytes_digits (readV x s) s) hs (n := 3) (k := 0) (by decide) (by decide) hpc

/-! ### Loading upward from `I` -/

/-- One more register loaded: what was loaded before moves neither `I` nor memory. -/
theorem loadUp_succ (n : Nat) (s : State) :
    forUpTo (n + 1) loadRow s = writeV (BitVec.ofNat 4 n) (peek s (s.i.toNat + n))
      (emit (.memRead (s.i.toNat + n) (peek s (s.i.toNat + n))) (forUpTo n loadRow s)) := by
  have hframe : s.SameBut _ (forUpTo n loadRow s) := forUpTo_sameBut loadRow_sameBut n s
  rw [forUpTo_succ, loadRow, memRead, indexAddr, hframe.i_eq (by decide), hframe.peek_eq (by decide)]

theorem loadUp_events (n : Nat) (s : State) : (forUpTo n loadRow s).events =
    s.events ++ (List.range n).map fun k => .memRead (s.i.toNat + k) (peek s (s.i.toNat + k)) := by
  induction n with
  | zero => exact (List.append_nil _).symm
  | succ n ih => rw [loadUp_succ, writeV_events, emit_events, ih, List.append_assoc, List.range_succ, List.map_append]; rfl

/-- Of at most 16 registers none is loaded twice, so each holds its own byte. -/
theorem readV_loadUp {n : Nat} (hn : n ≤ 16) {k : Nibble} (hk : k.toNat < n) (s : State) :
    readV k (forUpTo n loadRow s) = peek s (s.i.toNat + k.toNat) := by
  induction n with
  | zero => cases hk
  | succ n ih =>
    have hidx : k = BitVec.ofNat 4 n ↔ k.toNat = n := by
      rw [← BitVec.toNat_inj, BitVec.toNat_ofNat, Nat.mod_eq_of_lt hn]
    rw [loadUp_succ, readV_writeV, emit_readV]
    obtain hkn | hlt := Nat.eq_or_lt_of_le (Nat.le_of_lt_succ hk)
    · rw [if_pos (hidx.2 hkn), hkn]
    · rw [if_neg fun hkn => hlt.ne (hidx.1 hkn)]
      exact ih (by omega) hlt

/-- Settles O42. -/
theorem loadRegistersResult : Obligations.LoadRegistersResult := fun x s =>
  ⟨_, rfl, fun _ hk => readV_loadUp x.isLt (Nat.lt_succ_of_le hk) s, fun _ hk => readV_forUpTo_loadRow hk s,
    loadUp_events (x.toNat + 1) s, exec_sameBut (i := .ldRegs x) rfl⟩

end Sys2Proof.Machine
end

section
/-! A raised fault is the state after the fetch and the advance with the latch set and one report more, and nothing else
(spec/60_exceptions.md R188); a latched one is answered again at every later step (R189). -/

namespace Sys2Proof.Machine

/-- An instruction that sets a clear latch did nothing but raise the fault. -/
theorem exec_eq_raiseFault {i : Instr} {s t : State} {c : FaultCause} (hs : s.fault = none) (h : exec i s = .next t)
    (ht : t.fault = some c) : t = raiseFault c s := by
  have hne : t.fault ≠ s.fault := by simp [ht, hs]
  have hw : .fault ∈ writes i := by_contra fun hw => hne ((exec_sameBut h).fault_eq hw)
  obtain rfl | ⟨addr, rfl⟩ := fault_mem_writes.1 hw
  · obtain ⟨-, rfl⟩ | ⟨_, rfl⟩ := execRet_cases h
    · cases ht; rfl
    · exact absurd rfl hne
  · obtain ⟨-, rfl⟩ | ⟨_, rfl⟩ := execCall_cases h
    · cases ht; rfl
    · exact absurd rfl hne

/-- A step that raises a fault is the fetch, the advance and the fault; an unimplemented word raises none (R95, R188). -/
theorem step_eq_raiseFault {s t : State} {c : FaultCause} (h : step s = .next t) (ht : t.fault = some c) :
    t = raiseFault c (fetchAdvance s) := by
  obtain ⟨hs, ⟨i, -, hx⟩ | ⟨e, -, rfl⟩⟩ := step_cases h
  · exact exec_eq_raiseFault hs hx ht
  · rw [unimplemented_fault, fetchAdvance_fault, hs] at ht
    cases ht

/-- The two transactions of a raising step, the fetch and the report, in one list. -/
theorem raiseFault_fetchAdvance (c : FaultCause) (s : State) : raiseFault c (fetchAdvance s) =
    { s with pc := s.pc + 2#16, fault := some c, events := s.events ++ [.fetch s.pc (fetchWord s), .report c] } :=
  congrArg (fun evs => { s with pc := s.pc + 2#16, fault := some c, events := evs }) (List.append_assoc s.events _ _)

theorem response_of_fault {s : State} {c : FaultCause} (hf : s.fault = some c) : response s = some (.fault c) := by
  rw [response, show cycle s = .fault (.latched c) from step_of_fault hf]

/-- Settles O44: the raising step is the fetch, the advance and the fault, and the latch it leaves is answered again. -/
theorem faultIsPreciseAndReportedOnce : Obligations.FaultIsPreciseAndReportedOnce := fun s _ c _ h ht =>
  ⟨(step_eq_raiseFault h ht).trans (raiseFault_fetchAdvance c s), step_of_fault ht, response_of_fault ht⟩

end Sys2Proof.Machine
end

section
/-! `reset` in any state: the core goes to Table R31 and nothing outside it moves (spec/70_reset_and_hazards.md R210, R211), so the
next fetch reads the untouched memory at 0x200 (R213). -/

namespace Sys2Proof.Machine

theorem resetCore_registerFile (s : State) : (resetCore s).registerFile = RegisterFile.reset := by
  simp [State.registerFile]

/-- The entry point is a constant and memory is what it was: no vector is read (R213). -/
theorem fetchWord_resetCore (s : State) :
    fetchWord (resetCore s) = wordOfBytes (s.mem.read 0x200) (s.mem.read 0x201) :=
  calc fetchWord (resetCore s)
    _ = peekWord (resetCore s) 0x200 := by rw [fetchWord, resetCore_pc]; rfl
    _ = wordOfBytes (peek s 0x200) (peek s 0x201) := by rw [peekWord, resetCore_peek, resetCore_peek]
    _ = wordOfBytes (s.mem.read 0x200) (s.mem.read 0x201) := rfl

/-- Settles O47: what no host move reaches, the fields that `reset` leaves, and the first fetch. -/
theorem resetTouchesOnlyTheCore : Obligations.ResetTouchesOnlyTheCore := by
  intro s
  obtain ⟨hext, hevents, hsources⟩ := hostAct_outside .reset s
  exact ⟨resetCore_registerFile s, resetCore_mem s, hsources, resetCore_delay s, resetCore_sound s, hevents, hext,
    fetchWord_resetCore s⟩

end Sys2Proof.Machine
end
